-- ==== Sys2Proof/Word.lean ====
section
/-! DEFINITION. The two small enumerations the instructions are written with: the parameter modes and the parameter
roles (spec/30_encoding.md R55, R56).

The word of the machine is Lean's own `Int`. A value is "an element of `Int`, the set of integers `v` with
`INT_MIN <= v <= INT_MAX`" (spec/00_scope.md R5): the rules compute on the integer and never on bits, and `XLEN` is a
parameter. That a cell, `pc`, `rb` lie in the spec's set (`Params.InRange`) is an invariant of the machine, `State.wf`
(log entry 1). No synonym is declared for it, so that `omega` reads every statement about values. -/

namespace Sys2Proof

/-- The mode of a parameter, one decimal digit of the instruction word (R51, R56). Every digit 0 to 9 is a `Mode`: a
digit 3 to 9 faults only when phase A reaches its parameter (R78, R135), so the decoder hands it on. -/
inductive Mode where
  /-- 0: the parameter word is the address of the operand (R75) -/
  | position
  /-- 1: the parameter word is the operand (R76) -/
  | immediate
  /-- 2: the parameter word plus `rb` is the address of the operand (R77) -/
  | relative
  /-- the digit `3 + k`, 3 to 9: no mode, `DecodeError(BadMode)` (R78) -/
  | unrecognised (k : Fin 7)
  deriving DecidableEq, Repr

/-- The decimal digit that encodes a mode (R56). -/
def Mode.digit : Mode → Nat
  | .position => 0
  | .immediate => 1
  | .relative => 2
  | .unrecognised k => 3 + k.val

/-- The role of a parameter (R53, R55): a source is read, a destination is written. -/
inductive Role where
  | src
  | dst
  deriving DecidableEq, Repr

end Sys2Proof
end

