-- ==== Sys2Proof/Config.lean ====
section
/-! DEFINITION. The implementation parameters (spec/00_scope.md R3, R4, R5; the complete list is its section 4), this
hardware's values of them, and the free values: the environment's answers to the two ports (spec/10_state.md R19, R20;
spec/92_eei_decisions.md D20). -/

namespace Sys2Proof

/-- The legal values of `XLEN` (R3). -/
inductive XLen where
  | w32
  | w64
  deriving DecidableEq, Repr

/-- `XLEN` in bits. -/
def XLen.bits : XLen → Nat
  | .w32 => 32
  | .w64 => 64

/-- The two parameters of the core (R3, R4): "a model takes `XLEN` as a parameter with the legal values 32 and 64". -/
structure Params where
  /-- cell, register and port width (R3) -/
  xlen : XLen
  /-- whether `rb`, opcode 9 and mode 2 exist (R4) -/
  relbaseEn : Bool
  deriving DecidableEq, Repr

/-- `INT_MIN = -(2^(XLEN-1))` (R5). -/
def Params.intMin (p : Params) : Int := -(2 ^ (p.xlen.bits - 1))

/-- `INT_MAX = 2^(XLEN-1) - 1` (R5). -/
def Params.intMax (p : Params) : Int := 2 ^ (p.xlen.bits - 1) - 1

/-- `MAX_IMAGE_LEN = INT_MAX - 3` (spec/20_memory.md R36, D16). -/
def Params.maxImageLen (p : Params) : Int := p.intMax - 3

/-- The value lies in the spec's set `Int` (R5). -/
abbrev Params.InRange (p : Params) (v : Int) : Prop := p.intMin ≤ v ∧ v ≤ p.intMax

/-- This hardware: `XLEN = 64`, `RELBASE_EN = true` (R3, R4, D1, D2). -/
def Config.hardware : Params := ⟨.w64, true⟩

/-- FREE VALUE (R19, D20, U15; log entry 5): the answer of the input source to the `n`-th port call that the state's
`env.pulls` does not script: `none`, or any value of the cell's width (read as a signed number). No body: nothing can be
proved of which answer it is. -/
opaque Config.freePull (p : Params) (n : Nat) : Option (BitVec p.xlen.bits)

/-- FREE VALUE (R20, D20, U15; log entry 5): the answer `stop` of the output sink to the `n`-th port call that the
state's `env.stops` does not script. No body. -/
opaque Config.freeStop (n : Nat) : Bool

end Sys2Proof
end

