-- ==== Sys2Proof/Syntax.lean ====
section
/-! DEFINITION. The ten instructions (spec/30_encoding.md R53; spec/opcode_table.json), one constructor per row, each
with the modes of the parameters it has. The parameter WORDS are no part of the instruction word: "the Decoder extracts
opcode and up to three parameter addressing modes from a single instruction word" (spec/40_cycle_and_operands.md R73),
and phase A reads `P(i) = mem[pc + i]` (R74). -/

namespace Sys2Proof

/-- An instruction: its opcode and the mode digit of every parameter it has, bad digits among them (R56, R61). -/
inductive Instr where
  /-- opcode 1, format F3: src, src, dst (R90) -/
  | add (m1 m2 m3 : Mode)
  /-- opcode 2, format F3: src, src, dst (R91) -/
  | mul (m1 m2 m3 : Mode)
  /-- opcode 3, format F1D: dst (R95) -/
  | input (m1 : Mode)
  /-- opcode 4, format F1S: src (R96) -/
  | output (m1 : Mode)
  /-- opcode 5, format F2: src, src (R100) -/
  | jumpIfTrue (m1 m2 : Mode)
  /-- opcode 6, format F2: src, src (R101) -/
  | jumpIfFalse (m1 m2 : Mode)
  /-- opcode 7, format F3: src, src, dst (R105) -/
  | lessThan (m1 m2 m3 : Mode)
  /-- opcode 8, format F3: src, src, dst (R106) -/
  | equals (m1 m2 m3 : Mode)
  /-- opcode 9, format F1S: src; exists when `RELBASE_EN = true` (R110) -/
  | adjustBase (m1 : Mode)
  /-- opcode 99, format F0: no parameter (R111) -/
  | halt
  deriving DecidableEq, Repr

/-- The opcode, `w rem 100` of the instruction's word (R53). -/
def Instr.opcode : Instr → Nat
  | .add _ _ _ => 1
  | .mul _ _ _ => 2
  | .input _ => 3
  | .output _ => 4
  | .jumpIfTrue _ _ => 5
  | .jumpIfFalse _ _ => 6
  | .lessThan _ _ _ => 7
  | .equals _ _ _ => 8
  | .adjustBase _ => 9
  | .halt => 99

/-- The parameters in ascending order, with role and mode (R53, R55). -/
def Instr.params : Instr → List (Role × Mode)
  | .add m1 m2 m3 => [(.src, m1), (.src, m2), (.dst, m3)]
  | .mul m1 m2 m3 => [(.src, m1), (.src, m2), (.dst, m3)]
  | .input m1 => [(.dst, m1)]
  | .output m1 => [(.src, m1)]
  | .jumpIfTrue m1 m2 => [(.src, m1), (.src, m2)]
  | .jumpIfFalse m1 m2 => [(.src, m1), (.src, m2)]
  | .lessThan m1 m2 m3 => [(.src, m1), (.src, m2), (.dst, m3)]
  | .equals m1 m2 m3 => [(.src, m1), (.src, m2), (.dst, m3)]
  | .adjustBase m1 => [(.src, m1)]
  | .halt => []

/-- The length in cells, `1 + n` (R54). -/
def Instr.length (i : Instr) : Nat := 1 + i.params.length

/-- The instruction exists in the machine with these parameters: ADJUST-BASE needs `RELBASE_EN` (R4, R59). -/
def Instr.available (p : Params) : Instr → Bool
  | .adjustBase _ => p.relbaseEn
  | _ => true

/-- The document's name of the opcode (R53). -/
def Instr.mnemonic : Instr → String
  | .add _ _ _ => "ADD"
  | .mul _ _ _ => "MUL"
  | .input _ => "INPUT"
  | .output _ => "OUTPUT"
  | .jumpIfTrue _ _ => "JUMP-IF-TRUE"
  | .jumpIfFalse _ _ => "JUMP-IF-FALSE"
  | .lessThan _ _ _ => "LESS-THAN"
  | .equals _ _ _ => "EQUALS"
  | .adjustBase _ => "ADJUST-BASE"
  | .halt => "HALT"

/-- The short form of the spec's listings (R53, R62). -/
def Instr.short : Instr → String
  | .add _ _ _ => "ADD"
  | .mul _ _ _ => "MUL"
  | .input _ => "IN"
  | .output _ => "OUT"
  | .jumpIfTrue _ _ => "JT"
  | .jumpIfFalse _ _ => "JF"
  | .lessThan _ _ _ => "LT"
  | .equals _ _ _ => "EQ"
  | .adjustBase _ => "ARB"
  | .halt => "HLT"

end Sys2Proof
end

