-- ==== Sys2Proof/WellFormed.lean ====
section
/-! DEFINITION. The checks on an instruction as syntax (spec/30_encoding.md R55, R56, R61;
spec/40_cycle_and_operands.md R78, R79): a legal mode on every parameter, no immediate destination, and the instruction
exists. An ill-formed instruction is not refused by the machine: it raises the `DecodeError` the spec names. -/

namespace Sys2Proof

/-- A mode that some parameter may have: 0, 1, and 2 when `RELBASE_EN = true` (R56). -/
def Mode.recognised (p : Params) : Mode → Bool
  | .position => true
  | .immediate => true
  | .relative => p.relbaseEn
  | .unrecognised _ => false

/-- The mode is legal for the role (R55): a destination is never immediate (R79). -/
def Mode.legalFor (p : Params) (r : Role) (m : Mode) : Bool :=
  m.recognised p && !(r == .dst && m == .immediate)

/-- Well formed: the instruction exists (R59) and every mode is legal for its parameter's role (R61's last row). -/
def Instr.wf (p : Params) (i : Instr) : Bool :=
  i.available p && i.params.all fun rm => rm.2.legalFor p rm.1

end Sys2Proof
end

