-- ==== Sys2Proof/Decode.lean ====
section
/-! DEFINITION. The decoder of an instruction word and, after it, the encoder (spec/30_encoding.md R50 to R61, R64;
spec/00_scope.md R7), and how the bits of a table word make a cell (R3, R5). -/

namespace Sys2Proof

/-- `a quot b`, the quotient rounded toward zero (R7). -/
def quot (a b : Int) : Int := a.tdiv b

/-- `a rem b = a - b * (a quot b)` (R7). -/
def rem (a b : Int) : Int := a.tmod b

/-- `dig(w, k)`, the decimal digit of weight `10^k` of `w >= 0` (R7). -/
def dig (w : Int) (k : Nat) : Nat := (rem (quot w (10 ^ k)) 10).toNat

/-- The mode a decimal digit encodes (R56). -/
def Mode.ofDigit : Nat → Mode
  | 0 => .position
  | 1 => .immediate
  | 2 => .relative
  | k + 3 => .unrecognised (Fin.ofNat 7 k)

/-- The names under which the decoder rejects a word (R61). -/
inductive Reject where
  /-- negative word or unknown opcode: `UnknownOpcodeError` (R52, R59) -/
  | unknownOpcode
  /-- known opcode and `w quot 100000 != 0`: `DecodeError(HighDigits)` (R58) -/
  | highDigits
  deriving DecidableEq, Repr

/-- A row of the opcode map (R53, R64): `match` under `mask = 100`, `requires`, and the instruction that three mode
digits make; a row uses the digits of the parameters it has and ignores the others (R57). -/
structure OpcodeRow where
  code : Nat
  needsRelbase : Bool
  build : Mode → Mode → Mode → Instr

/-- The opcode map (R53). -/
def opcodeTable : List OpcodeRow :=
  [⟨1, false, fun a b c => .add a b c⟩,
   ⟨2, false, fun a b c => .mul a b c⟩,
   ⟨3, false, fun a _ _ => .input a⟩,
   ⟨4, false, fun a _ _ => .output a⟩,
   ⟨5, false, fun a b _ => .jumpIfTrue a b⟩,
   ⟨6, false, fun a b _ => .jumpIfFalse a b⟩,
   ⟨7, false, fun a b c => .lessThan a b c⟩,
   ⟨8, false, fun a b c => .equals a b c⟩,
   ⟨9, true, fun a _ _ => .adjustBase a⟩,
   ⟨99, false, fun _ _ _ => .halt⟩]

/-- The row that a word's opcode selects: `w rem 100` is the row's code, and the row exists (R59, R64). -/
def opcodeRow (p : Params) (w : Int) : Option OpcodeRow :=
  opcodeTable.find? fun r => rem w 100 == (r.code : Int) && (p.relbaseEn || !r.needsRelbase)

/-- The mode of parameter `i`: `M(i) = dig(w, i + 1)` (R51). -/
def modeOf (w : Int) (i : Nat) : Mode := Mode.ofDigit (dig w (i + 1))

/-- The classification of an instruction word in the order of R61: negative, unknown opcode, high digits, instruction.
The last two checks of R61 (bad mode, immediate destination) are made in phase A, where a fault of an earlier parameter
may come first (R74, R135). -/
def decode (p : Params) (w : Int) : Except Reject Instr :=
  if w < 0 then .error .unknownOpcode
  else
    match opcodeRow p w with
    | none => .error .unknownOpcode
    | some r =>
      if quot w 100000 ≠ 0 then .error .highDigits
      else .ok (r.build (modeOf w 1) (modeOf w 2) (modeOf w 3))

/-! ### The encoder -/

/-- The word of an opcode and up to three modes: `opcode + 100*M(1) + 1000*M(2) + 10000*M(3)` (R51, R62). -/
def wordOf (opcode m1 m2 m3 : Nat) : Int :=
  ((opcode + 100 * m1 + 1000 * m2 + 10000 * m3 : Nat) : Int)

/-- The canonical word of an instruction, the digits of absent parameters 0 (R61, R62). -/
def encode : Instr → Int
  | .add m1 m2 m3 => wordOf 1 m1.digit m2.digit m3.digit
  | .mul m1 m2 m3 => wordOf 2 m1.digit m2.digit m3.digit
  | .input m1 => wordOf 3 m1.digit 0 0
  | .output m1 => wordOf 4 m1.digit 0 0
  | .jumpIfTrue m1 m2 => wordOf 5 m1.digit m2.digit 0
  | .jumpIfFalse m1 m2 => wordOf 6 m1.digit m2.digit 0
  | .lessThan m1 m2 m3 => wordOf 7 m1.digit m2.digit m3.digit
  | .equals m1 m2 m3 => wordOf 8 m1.digit m2.digit m3.digit
  | .adjustBase m1 => wordOf 9 m1.digit 0 0
  | .halt => wordOf 99 0 0 0

/-! ### Table words -/

/-- The cell whose `XLEN` bits are the low bits of `b`, as a two's-complement signed number (R5). -/
def cellOfBits (p : Params) (b : Nat) : Int :=
  let r := b % 2 ^ p.xlen.bits
  if r < 2 ^ (p.xlen.bits - 1) then (r : Int) else (r : Int) - 2 ^ p.xlen.bits

/-- The four cells (the longest instruction, R54) whose bits are `w`'s low `nbits` bits, cell 0 the least significant
and every higher bit 0 (log entry 13). -/
def tableCells (p : Params) (nbits w : Nat) : List Int :=
  let b := w % 2 ^ nbits
  [cellOfBits p b, cellOfBits p (b / 2 ^ p.xlen.bits), cellOfBits p (b / 2 ^ (2 * p.xlen.bits)),
   cellOfBits p (b / 2 ^ (3 * p.xlen.bits))]

/-- The instruction the decoder reads from a table word: it looks at the first cell alone (R73). -/
def decodeTableWord (nbits w : Nat) : Option Instr :=
  match decode Config.hardware (cellOfBits Config.hardware (w % 2 ^ nbits)) with
  | .ok i => some i
  | .error _ => none

end Sys2Proof
end

