-- ==== Sys2Proof/Machine/State.lean ====
section
/-! DEFINITION. The state of the machine (spec/10_state.md R10 to R24, spec/60_exceptions.md R121), the state after
reset (R22, spec/70_reset_and_hazards.md R140), and the reasons for which a step can stop. -/

namespace Sys2Proof.Machine

/-- The run state (R14). -/
inductive Status where
  /-- the core executes cycles -/
  | running
  /-- "opcode 99 encountered" -/
  | haltedNormally
  /-- "an input opcode executed but the input source had nothing available" -/
  | blockedOnInput
  /-- "the output sink asked the engine to stop after consuming a value" -/
  | outputRequestedStop
  /-- a fault was raised; sticky (R129) -/
  | faulted
  deriving DecidableEq, Repr

/-- The suggested numbering of `status` (R14). -/
def Status.code : Status → Nat
  | .running => 0
  | .haltedNormally => 1
  | .blockedOnInput => 2
  | .outputRequestedStop => 3
  | .faulted => 4

/-- The five kinds of fault (R120). -/
inductive FaultKind where
  | pcRangeError
  | unknownOpcodeError
  | decodeError
  | addressError
  | overflowError
  deriving DecidableEq, Repr

/-- The numeric code of a kind (R121). -/
def FaultKind.code : FaultKind → Nat
  | .pcRangeError => 1
  | .unknownOpcodeError => 2
  | .decodeError => 3
  | .addressError => 4
  | .overflowError => 5

/-- The `reason` of a `DecodeError` (R16, R124). -/
inductive DecodeReason where
  | badMode
  | immediateDestination
  | highDigits
  deriving DecidableEq, Repr

/-- The fault record (R16); a field is `none` where R121 gives the kind no such field. -/
structure FaultRecord where
  kind : FaultKind
  /-- `pc` at the fault -/
  pc : Int
  /-- the whole instruction word; absent for `PcRangeError` -/
  word : Option Int
  /-- parameter index 1 to 3 -/
  param : Option Nat
  /-- the offending mode digit -/
  mode : Option Nat
  /-- the negative effective address -/
  address : Option Int
  reason : Option DecodeReason
  deriving DecidableEq, Repr

/-- The memory (R17): the cells that do not hold 0, by address. R34: "a finite map with default 0"; an unlisted address
reads 0, so a cell never written and a cell holding 0 are the same data. Cells, not bytes (R37; log entry 3). -/
abbrev Memory := List (Nat × Int)

/-- The canonical form: addresses strictly rising and no entry equal to what an unlisted address reads as. -/
abbrev Memory.wf (m : Memory) : Prop :=
  m.Pairwise (fun a b => a.1 < b.1) ∧ ∀ e ∈ m, e.2 ≠ 0

/-- The whole state of the core, "exactly this state" (R10); what a snapshot copies (spec/70_reset_and_hazards.md R145). -/
structure CoreState where
  /-- the one memory (R17) -/
  mem : Memory
  /-- program counter (R12) -/
  pc : Int
  /-- relative base (R13) -/
  rb : Int
  /-- number of cells of the loaded image (R15) -/
  len : Nat
  /-- run state (R14) -/
  status : Status
  /-- fault record (R16); `none` holds nothing -/
  fault : Option FaultRecord
  deriving DecidableEq, Repr

/-- The environment as the step sees it: the MODEL's own data, no state of the core (R10, R24; log entries 5 and 6). A
statement over every state is a statement over every answer of the environment (D20). -/
structure Env where
  /-- the answers to the next `InPull()` calls, first the next one (R19) -/
  pulls : List (Option Int)
  /-- the answers `stop` to the next `OutPush` calls, first the next one (R20) -/
  stops : List Bool
  /-- how many answers have been drawn from `Config.freePull` and `Config.freeStop` -/
  drawn : Nat
  /-- the values pushed so far, oldest first (R20) -/
  outputs : List Int
  deriving DecidableEq, Repr

/-- The state of the model: the core's, and the environment's answers. -/
structure State extends CoreState where
  env : Env
  deriving DecidableEq, Repr

/-- Right after reset. Reset is `load(image)` and "power-on without an image is not a state of this machine" (R22): this
is the state after `load([])`, which R36 accepts; a program comes in by `load` (log entry 4). The environment has
promised nothing (log entry 5). -/
def State.reset : State where
  mem := []
  pc := 0
  rb := 0
  len := 0
  status := .running
  fault := none
  env := { pulls := [], stops := [], drawn := 0, outputs := [] }

/-- Why a step ends in `Host.Outcome.fault`. The five faults of the spec are NEXT states (R126). -/
inductive Fault where
  /-- Raised by `step` on a core whose `status` is already `Faulted`, with the fault record it holds: "a `Faulted` core
  executes no cycle" (R129). Safe: the machine has no move there either (log entry 8). -/
  | coreFaulted (record : Option FaultRecord)
  deriving DecidableEq, Repr

/-- Why a step ends in `Host.Outcome.refused`. -/
inductive Refusal where
  /-- Raised by an arm of `exec` whose instruction has no meaning yet: none. Safe. -/
  | notModelled (mnemonic : String)
  /-- Raised by INPUT when the environment's scripted answer is a value outside the cell range: U13, "refuse: the
  environment is assumed never to offer one" (R19). Safe (log entry 7). -/
  | inputOutOfRange
  deriving DecidableEq, Repr

end Sys2Proof.Machine
end

