-- ==== Sys2Proof/Machine/Ops.lean ====
section
/-! DEFINITION. The named operations over memory, registers and ports that every meaning is written with:
`MemRead` and `MemWrite` (spec/20_memory.md R32, R33), taking a fault (spec/60_exceptions.md R126) with the records of
R121, and the two ports (spec/10_state.md R19, R20). There is no return from a fault (R129). -/

namespace Sys2Proof.Machine

/-! ### Memory -/

/-- The content of a cell; 0 where nothing is listed (R34). -/
def Memory.read : Memory → Nat → Int
  | [], _ => 0
  | (k, v) :: rest, a => if a = k then v else Memory.read rest a

/-- The memory without an entry for `a`. -/
def Memory.erase (m : Memory) (a : Nat) : Memory := m.filter fun e => e.1 ≠ a

/-- The memory with the entry `(a, v)` put at its place in rising order. -/
def Memory.insert (a : Nat) (v : Int) : Memory → Memory
  | [] => [(a, v)]
  | (k, x) :: rest => if a < k then (a, v) :: (k, x) :: rest else (k, x) :: Memory.insert a v rest

/-- `mem[a] <- v`: no other cell changes (R33). Writing 0 removes the entry (R34). -/
def Memory.write (m : Memory) (a : Nat) (v : Int) : Memory :=
  if v = 0 then m.erase a else (m.erase a).insert a v

/-- The memory that holds the image from address `a` upward and 0 elsewhere (R36, R140). -/
def Memory.ofImage (a : Nat) : List Int → Memory
  | [] => []
  | v :: rest => if v = 0 then Memory.ofImage (a + 1) rest else (a, v) :: Memory.ofImage (a + 1) rest

/-- `mem[a]`, "used only where `a >= 0` is already known" (spec/00_scope.md section 5.2; log entry 12). -/
def State.cell (s : State) (a : Int) : Int := Memory.read s.mem a.toNat

/-- The instruction word `w = mem[pc]` (R72). -/
def State.word (s : State) : Int := s.cell s.pc

/-- The parameter word `P(i) = mem[pc + i]`, read without a range check (R74, R84). -/
def State.param (s : State) (i : Nat) : Int := s.cell (s.pc + i)

/-- `mem[a] <- v` for a legal address `a` (R33). -/
def State.setCell (s : State) (a v : Int) : State := { s with mem := s.mem.write a.toNat v }

/-! ### Registers -/

/-- `pc <- pc + n`, the fixed width of a completed instruction (R12). -/
def State.advance (s : State) (n : Nat) : State := { s with pc := s.pc + n }

/-- `pc <- target` (R102). -/
def State.jumpTo (s : State) (target : Int) : State := { s with pc := target }

/-- `rb <- v` (R13). -/
def State.setRb (s : State) (v : Int) : State := { s with rb := v }

/-- `status <- x` (R14). -/
def State.setStatus (s : State) (x : Status) : State := { s with status := x }

/-! ### Taking a fault -/

/-- `raise K(info)`: `status <- Faulted; fault <- (kind = K, info)`, and nothing else changes (R126). -/
def State.raise (s : State) (r : FaultRecord) : State := { s with status := .faulted, fault := some r }

/-- `PcRangeError(pc)`: "there is no instruction word" (R122). -/
def State.pcRangeRecord (s : State) : FaultRecord :=
  { kind := .pcRangeError, pc := s.pc, word := none, param := none, mode := none, address := none, reason := none }

/-- `UnknownOpcodeError(pc, w)`: the whole word is recorded (R123). -/
def State.unknownOpcodeRecord (s : State) : FaultRecord :=
  { kind := .unknownOpcodeError, pc := s.pc, word := some s.word, param := none, mode := none, address := none,
    reason := none }

/-- `DecodeError(HighDigits, pc, w)` (R58, R121). -/
def State.highDigitsRecord (s : State) : FaultRecord :=
  { kind := .decodeError, pc := s.pc, word := some s.word, param := none, mode := none, address := none,
    reason := some .highDigits }

/-- `DecodeError(BadMode, pc, w, i, m)` (R78). -/
def State.badModeRecord (s : State) (i : Nat) (m : Mode) : FaultRecord :=
  { kind := .decodeError, pc := s.pc, word := some s.word, param := some i, mode := some m.digit, address := none,
    reason := some .badMode }

/-- `DecodeError(ImmediateDestination, pc, w, i, 1)` (R79). -/
def State.immediateDestinationRecord (s : State) (i : Nat) : FaultRecord :=
  { kind := .decodeError, pc := s.pc, word := some s.word, param := some i, mode := some Mode.immediate.digit,
    address := none, reason := some .immediateDestination }

/-- `AddressError(pc, w, i, EA(i))` (R125). -/
def State.addressRecord (s : State) (i : Nat) (ea : Int) : FaultRecord :=
  { kind := .addressError, pc := s.pc, word := some s.word, param := some i, mode := none, address := some ea,
    reason := none }

/-- `OverflowError(pc, w, i)`, raised in phase A by mode 2 (R77, R121). -/
def State.resolveOverflowRecord (s : State) (i : Nat) : FaultRecord :=
  { kind := .overflowError, pc := s.pc, word := some s.word, param := some i, mode := none, address := none,
    reason := none }

/-- `OverflowError(pc, w)`, raised in phase C; no parameter is named (R16, R121). -/
def State.operateOverflowRecord (s : State) : FaultRecord :=
  { kind := .overflowError, pc := s.pc, word := some s.word, param := none, mode := none, address := none,
    reason := none }

/-! ### Ports -/

/-- The answer to `InPull()` (R19): the next scripted answer, or the free value where nothing is scripted. -/
def pullAnswer (p : Params) (e : Env) : Option Int :=
  match e.pulls with
  | a :: _ => a
  | [] => (Config.freePull p e.drawn).map BitVec.toInt

/-- The environment after it has answered one `InPull()`. -/
def Env.pulled (e : Env) : Env :=
  match e.pulls with
  | _ :: rest => { e with pulls := rest }
  | [] => { e with drawn := e.drawn + 1 }

/-- The environment's scripted answer is no value of the machine (U13); a free answer always is one. -/
def Env.offersOutOfRange (p : Params) (e : Env) : Bool :=
  match e.pulls with
  | some v :: _ => !decide (p.InRange v)
  | _ => false

/-- The answer `stop` to `OutPush(v)` (R20). -/
def stopAnswer (e : Env) : Bool :=
  match e.stops with
  | b :: _ => b
  | [] => Config.freeStop e.drawn

/-- The environment after `OutPush(v)`: the value handed over, and one answer given (R20). -/
def Env.pushed (e : Env) (v : Int) : Env :=
  match e.stops with
  | _ :: rest => { e with stops := rest, outputs := e.outputs ++ [v] }
  | [] => { e with drawn := e.drawn + 1, outputs := e.outputs ++ [v] }

/-- The state after the environment has answered one `InPull()`. -/
def State.pulled (s : State) : State := { s with env := s.env.pulled }

/-- The state after `OutPush(v)`. -/
def State.pushed (s : State) (v : Int) : State := { s with env := s.env.pushed v }

/-- What the sink may read during `OutPush`: `mem` and `rb`, and neither `pc` nor `status`
(spec/70_reset_and_hazards.md R145, U11). -/
def State.sinkView (s : State) : Memory × Int := (s.mem, s.rb)

end Sys2Proof.Machine
end

