-- ==== Sys2Proof/Machine/Flags.lean ====
section
/-! DEFINITION. What other machines keep in flags. This one has "no flags, condition codes or predicate registers"
(spec/10_state.md R23): overflow faults (spec/00_scope.md R6, spec/41_arithmetic.md R92), comparisons give the value 0 or
1 to a cell (spec/44_compare.md R105, R106), and the jumps test a value against zero (spec/43_jumps.md R100, R101). -/

namespace Sys2Proof.Machine

/-- The exact mathematical result when it lies in `Int`, and nothing otherwise (R6). -/
def checked (p : Params) (r : Int) : Option Int := if p.InRange r then some r else none

/-- `add_chk(a, b)` (R6). -/
def addChk (p : Params) (a b : Int) : Option Int := checked p (a + b)

/-- `mul_chk(a, b)` (R6). -/
def mulChk (p : Params) (a b : Int) : Option Int := checked p (a * b)

/-- `1 if V(1) < V(2) else 0`, signed (R105). -/
def lessThanResult (a b : Int) : Int := if a < b then 1 else 0

/-- `1 if V(1) = V(2) else 0` (R106). -/
def equalsResult (a b : Int) : Int := if a = b then 1 else 0

/-- `V(1) != 0`: "any non-zero value, negative values included" (R100). -/
def isNonzero (v : Int) : Bool := v != 0

end Sys2Proof.Machine
end

