-- ==== Sys2Proof/Machine/Operands.lean ====
section
/-! DEFINITION. Phases A and B of an instruction (spec/40_cycle_and_operands.md R74 to R81), and the shape of the
instructions of each format (spec/30_encoding.md R55). Both phases read the state before the instruction and change
nothing; the first fault met, in ascending order of the parameters, ends the instruction (R74, R135). -/

namespace Sys2Proof.Machine

/-- Phase A for parameter `i`: `EA(i)` (R75 to R79). -/
def resolve (p : Params) (s : State) (role : Role) (i : Nat) (m : Mode) : Except FaultRecord Int :=
  match m with
  | .position => .ok (s.param i)
  | .immediate =>
    match role with
    | .dst => .error (s.immediateDestinationRecord i)
    | .src => .ok (s.pc + i)
  | .relative =>
    if p.relbaseEn then
      match addChk p (s.param i) s.rb with
      | some ea => .ok ea
      | none => .error (s.resolveOverflowRecord i)
    else .error (s.badModeRecord i m)
  | .unrecognised _ => .error (s.badModeRecord i m)

/-- Phase B for a source: `V(i) = MemRead(EA(i), 1)` (R80, R32). -/
def getSource (s : State) (i : Nat) (ea : Int) : Except FaultRecord Int :=
  if ea < 0 then .error (s.addressRecord i ea) else .ok (s.cell ea)

/-- Phase B for a destination: "only checked, not read" (R74, R81). -/
def checkDest (s : State) (i : Nat) (ea : Int) : Except FaultRecord Int :=
  if ea < 0 then .error (s.addressRecord i ea) else .ok ea

/-- The operands of an instruction of format F3. -/
structure OperandsF3 where
  v1 : Int
  v2 : Int
  dest : Int
  deriving DecidableEq, Repr

/-- The operands of an instruction of format F2. -/
structure OperandsF2 where
  v1 : Int
  v2 : Int
  deriving DecidableEq, Repr

/-- Phases A and B of format F3: two sources, one destination (R55). -/
def operandsF3 (p : Params) (s : State) (m1 m2 m3 : Mode) : Except FaultRecord OperandsF3 := do
  let a1 ← resolve p s .src 1 m1
  let a2 ← resolve p s .src 2 m2
  let a3 ← resolve p s .dst 3 m3
  let v1 ← getSource s 1 a1
  let v2 ← getSource s 2 a2
  let dest ← checkDest s 3 a3
  return ⟨v1, v2, dest⟩

/-- Phases A and B of format F2: two sources, both read whether or not they are used (R55, R100). -/
def operandsF2 (p : Params) (s : State) (m1 m2 : Mode) : Except FaultRecord OperandsF2 := do
  let a1 ← resolve p s .src 1 m1
  let a2 ← resolve p s .src 2 m2
  let v1 ← getSource s 1 a1
  let v2 ← getSource s 2 a2
  return ⟨v1, v2⟩

/-- Phases A and B of format F1S: one source. -/
def operandF1S (p : Params) (s : State) (m1 : Mode) : Except FaultRecord Int := do
  let a1 ← resolve p s .src 1 m1
  getSource s 1 a1

/-- Phases A and B of format F1D: one destination. -/
def operandF1D (p : Params) (s : State) (m1 : Mode) : Except FaultRecord Int := do
  let a1 ← resolve p s .dst 1 m1
  checkDest s 1 a1

/-- What a meaning answers. -/
abbrev Answer := Host.Outcome State Fault Refusal

/-- The instruction goes on with its operands, or takes the fault of phase A or B (R126). -/
def withOperands {α : Type} (s : State) (ops : Except FaultRecord α) (operate : α → Answer) : Answer :=
  match ops with
  | .error r => .next (s.raise r)
  | .ok v => operate v

/-- Phases C and D of an F3 instruction: compute, write the destination, `pc <- pc + 4`; no result is an
`OverflowError` (R90). -/
def storeResult (s : State) (dest : Int) (result : Option Int) : Answer :=
  match result with
  | none => .next (s.raise s.operateOverflowRecord)
  | some r => .next ((s.setCell dest r).advance 4)

/-- An F3 instruction: phases A to D over the operation `f` of phase C. -/
def binaryToMemory (p : Params) (f : Int → Int → Option Int) (m1 m2 m3 : Mode) (s : State) : Answer :=
  withOperands s (operandsF3 p s m1 m2 m3) fun o => storeResult s o.dest (f o.v1 o.v2)

/-- A conditional jump: `pc <- V(2)` when the condition on `V(1)` holds, else `pc <- pc + 3` (R100, R101). -/
def jumpWhen (p : Params) (taken : Int → Bool) (m1 m2 : Mode) (s : State) : Answer :=
  withOperands s (operandsF2 p s m1 m2) fun o => .next (if taken o.v1 then s.jumpTo o.v2 else s.advance 3)

end Sys2Proof.Machine
end

