-- ==== Sys2Proof/Machine/Cycle.lean ====
section
/-! DEFINITION. Steps 1 and 2 of the cycle (spec/40_cycle_and_operands.md R70 to R73): the range check, the fetch, the
checks on the word; and when the core executes a cycle at all (spec/10_state.md R14). How an instruction executes is an
argument, so that the cycle is written once for every value of the parameters. -/

namespace Sys2Proof.Machine

/-- `not (0 <= pc and pc < len)` (R71). -/
def State.pcOutOfRange (s : State) : Bool := s.pc < 0 || (s.len : Int) ≤ s.pc

/-- One cycle (R70): range check (R71), fetch (R72), decode in the order of R61 (R73), then the instruction. -/
def cycleWith (p : Params) (execute : Instr → State → Answer) (s : State) : Answer :=
  if s.pcOutOfRange then .next (s.raise s.pcRangeRecord)
  else
    match decode p s.word with
    | .error .unknownOpcode => .next (s.raise s.unknownOpcodeRecord)
    | .error .highDigits => .next (s.raise s.highDigitsRecord)
    | .ok i => execute i s

/-- "The core executes cycles only while `status = Running`" (R14). Suspended or halted it executes nothing and all state
survives unchanged (R134); `Faulted` is sticky and has no move (R129; log entry 8). -/
def tickWith (p : Params) (execute : Instr → State → Answer) (s : State) : Answer :=
  match s.status with
  | .running => cycleWith p execute s
  | .haltedNormally => .next s
  | .blockedOnInput => .next s
  | .outputRequestedStop => .next s
  | .faulted => .fault (.coreFaulted s.fault)

/-! ### Placing an instruction where the next cycle fetches it -/

/-- The address at which `placeCells` puts an instruction: `pc` when the longest instruction fits below `MAX_IMAGE_LEN`
there, else 0 (log entry 13). -/
def State.placeAt (p : Params) (s : State) : Int :=
  if 0 ≤ s.pc ∧ s.pc + 4 ≤ p.maxImageLen then s.pc else 0

/-- The cells written from address `a` upward. -/
def State.setCells (s : State) (a : Int) : List Int → State
  | [] => s
  | v :: rest => State.setCells (s.setCell a v) (a + 1) rest

/-- The state whose next cycle runs the instruction in these cells: they stand at `pc`, inside the image, and the core is
`Running`. It stands for the `load` of an image that holds them (R140; log entries 4 and 13). -/
def State.placeCells (p : Params) (s : State) (cells : List Int) : State :=
  let a := s.placeAt p
  let placed := s.setCells a cells
  { placed with pc := a, len := max s.len (a.toNat + cells.length), status := .running, fault := none }

end Sys2Proof.Machine
end

