-- ==== Sys2Proof/Machine/Arithmetic.lean ====
section
/-! DEFINITION. ADD and MUL (spec/41_arithmetic.md). -/

namespace Sys2Proof.Machine

/-- ADD with any parameters of the core (R90). -/
def addWith (p : Params) (m1 m2 m3 : Mode) (s : State) : Answer := binaryToMemory p (addChk p) m1 m2 m3 s

/-- MUL with any parameters of the core (R91). -/
def mulWith (p : Params) (m1 m2 m3 : Mode) (s : State) : Answer := binaryToMemory p (mulChk p) m1 m2 m3 s

/-- ADD (R90). -/
def execAdd (m1 m2 m3 : Mode) (s : State) : Answer := addWith Config.hardware m1 m2 m3 s

/-- MUL (R91). -/
def execMul (m1 m2 m3 : Mode) (s : State) : Answer := mulWith Config.hardware m1 m2 m3 s

end Sys2Proof.Machine
end

