-- ==== Sys2Proof/Machine/BaseAndHalt.lean ====
section
/-! DEFINITION. ADJUST-BASE and HALT (spec/45_base_and_halt.md). -/

namespace Sys2Proof.Machine

/-- ADJUST-BASE's phases C and D: `rb <- add_chk(rb, V(1))`, `pc <- pc + 2` (R110). -/
def adjustRb (s : State) (result : Option Int) : Answer :=
  match result with
  | none => .next (s.raise s.operateOverflowRecord)
  | some r => .next ((s.setRb r).advance 2)

/-- ADJUST-BASE with any parameters of the core (R110); without the relative base its opcode is unknown (R59). -/
def adjustBaseWith (p : Params) (m1 : Mode) (s : State) : Answer :=
  if p.relbaseEn then
    withOperands s (operandF1S p s m1) fun v => adjustRb s (addChk p s.rb v)
  else .next (s.raise s.unknownOpcodeRecord)

/-- HALT: "`pc` is not written" (R111). It has no operand and so no parameter of the core bears on it. -/
def haltAnswer (s : State) : Answer := .next (s.setStatus .haltedNormally)

/-- ADJUST-BASE (R110). -/
def execAdjustBase (m1 : Mode) (s : State) : Answer := adjustBaseWith Config.hardware m1 s

/-- HALT (R111). -/
def execHalt (s : State) : Answer := haltAnswer s

end Sys2Proof.Machine
end

