-- ==== Sys2Proof/Machine/Compare.lean ====
section
/-! DEFINITION. LESS-THAN and EQUALS (spec/44_compare.md). -/

namespace Sys2Proof.Machine

/-- LESS-THAN with any parameters of the core (R105); the comparison cannot fault. -/
def lessThanWith (p : Params) (m1 m2 m3 : Mode) (s : State) : Answer :=
  binaryToMemory p (fun a b => some (lessThanResult a b)) m1 m2 m3 s

/-- EQUALS with any parameters of the core (R106); the comparison cannot fault. -/
def equalsWith (p : Params) (m1 m2 m3 : Mode) (s : State) : Answer :=
  binaryToMemory p (fun a b => some (equalsResult a b)) m1 m2 m3 s

/-- LESS-THAN (R105). -/
def execLessThan (m1 m2 m3 : Mode) (s : State) : Answer := lessThanWith Config.hardware m1 m2 m3 s

/-- EQUALS (R106). -/
def execEquals (m1 m2 m3 : Mode) (s : State) : Answer := equalsWith Config.hardware m1 m2 m3 s

end Sys2Proof.Machine
end

