-- ==== Sys2Proof/Machine/InputOutput.lean ====
section
/-! DEFINITION. INPUT and OUTPUT (spec/42_io.md). -/

namespace Sys2Proof.Machine

/-- INPUT's phase D after the answer to `InPull()`: blocked, or the value stored and `pc <- pc + 2` (R95). -/
def storeInput (s : State) (dest : Int) (answer : Option Int) : State :=
  match answer with
  | none => s.setStatus .blockedOnInput
  | some v => (s.setCell dest v).advance 2

/-- OUTPUT's phase D after the answer to `OutPush(v)`: `pc <- pc + 2`, and the stop (R96). -/
def finishOutput (s : State) (stop : Bool) : State :=
  (s.advance 2).setStatus (if stop then .outputRequestedStop else s.status)

/-- INPUT with any parameters of the core (R95): the destination is resolved and checked before the pull (D11). A scripted
answer outside the cell range is refused (U13; log entry 7). -/
def inputWith (p : Params) (m1 : Mode) (s : State) : Answer :=
  withOperands s (operandF1D p s m1) fun dest =>
    if s.env.offersOutOfRange p then .refused .inputOutOfRange
    else .next (storeInput s.pulled dest (pullAnswer p s.env))

/-- OUTPUT with any parameters of the core (R96): one push, after every fault (R96). -/
def outputWith (p : Params) (m1 : Mode) (s : State) : Answer :=
  withOperands s (operandF1S p s m1) fun v => .next (finishOutput (s.pushed v) (stopAnswer s.env))

/-- INPUT (R95). -/
def execInput (m1 : Mode) (s : State) : Answer := inputWith Config.hardware m1 s

/-- OUTPUT (R96). -/
def execOutput (m1 : Mode) (s : State) : Answer := outputWith Config.hardware m1 s

end Sys2Proof.Machine
end

