-- ==== Sys2Proof/Machine/Jumps.lean ====
section
/-! DEFINITION. JUMP-IF-TRUE and JUMP-IF-FALSE (spec/43_jumps.md). -/

namespace Sys2Proof.Machine

/-- JUMP-IF-TRUE with any parameters of the core (R100). -/
def jumpIfTrueWith (p : Params) (m1 m2 : Mode) (s : State) : Answer := jumpWhen p isNonzero m1 m2 s

/-- JUMP-IF-FALSE with any parameters of the core (R101). -/
def jumpIfFalseWith (p : Params) (m1 m2 : Mode) (s : State) : Answer := jumpWhen p (fun v => !isNonzero v) m1 m2 s

/-- JUMP-IF-TRUE (R100). -/
def execJumpIfTrue (m1 m2 : Mode) (s : State) : Answer := jumpIfTrueWith Config.hardware m1 m2 s

/-- JUMP-IF-FALSE (R101). -/
def execJumpIfFalse (m1 m2 : Mode) (s : State) : Answer := jumpIfFalseWith Config.hardware m1 m2 s

end Sys2Proof.Machine
end

