-- ==== Sys2Proof/Machine/Step.lean ====
section
/-! DEFINITION. One step of the machine: one cycle of this hardware (spec/40_cycle_and_operands.md R70), and the state
in which the next step runs a given table word. -/

namespace Sys2Proof.Machine

/-- One step: a cycle while `Running` (R14, R70). -/
def step (s : State) : Host.Outcome State Fault Refusal := tickWith Config.hardware exec s

/-- `s` with the instruction of a table word stored where `step` fetches its next instruction (log entry 13). -/
def State.withFetchWord (s : State) (nbits w : Nat) : State :=
  s.placeCells Config.hardware (tableCells Config.hardware nbits w)

end Sys2Proof.Machine
end

