-- ==== Sys2Proof/Machine/Variant.lean ====
section
/-! DEFINITION. The core with any values of its two parameters (spec/00_scope.md R3, R4): the same meanings, with `p` in
place of this hardware's values. `exec` and `step` are these at `Config.hardware` (`exec_eq_execWith`, `step_eq_stepWith`). -/

namespace Sys2Proof.Machine

/-- The dispatch (R73) with any parameters. -/
def execWith (p : Params) (i : Instr) (s : State) : Answer :=
  match i with
  | .add m1 m2 m3 => addWith p m1 m2 m3 s
  | .mul m1 m2 m3 => mulWith p m1 m2 m3 s
  | .input m1 => inputWith p m1 s
  | .output m1 => outputWith p m1 s
  | .jumpIfTrue m1 m2 => jumpIfTrueWith p m1 m2 s
  | .jumpIfFalse m1 m2 => jumpIfFalseWith p m1 m2 s
  | .lessThan m1 m2 m3 => lessThanWith p m1 m2 m3 s
  | .equals m1 m2 m3 => equalsWith p m1 m2 m3 s
  | .adjustBase m1 => adjustBaseWith p m1 s
  | .halt => haltAnswer s

/-- One step with any parameters. -/
def stepWith (p : Params) (s : State) : Answer := tickWith p (execWith p) s

end Sys2Proof.Machine
end

