-- ==== Sys2Proof/Machine/Control.lean ====
section
/-! DEFINITION. The control port: "the host can do exactly five things to the core" (spec/10_state.md R21;
spec/70_reset_and_hazards.md R140 to R148). The host acts only while `run` is not executing, that is before `run` and
after it has returned: `RunsTo` holds no host move between two cycles (R21, C12). -/

namespace Sys2Proof.Machine

/-- An image the core accepts: every element in `Int`, length at most `MAX_IMAGE_LEN` (R36, D16). -/
abbrev admissible (p : Params) (image : List Int) : Prop :=
  (∀ v ∈ image, p.InRange v) ∧ (image.length : Int) ≤ p.maxImageLen

/-- The core right after an accepted load: "nothing of any earlier state survives" (R140). -/
def loadedCore (image : List Int) : CoreState where
  mem := Memory.ofImage 0 image
  pc := 0
  rb := 0
  len := image.length
  status := .running
  fault := none

/-- `load(image)`: reset; `none` is the loader's refusal, the core is not changed (R140, U14). -/
def load (p : Params) (image : List Int) (s : State) : Option State :=
  if admissible p image then some { s with toCoreState := loadedCore image } else none

/-- The change `resume` makes before it starts cycling: `status <- Running` and nothing else; `none` is the refusal of a
`Faulted` core (R143, D14). -/
def resume (s : State) : Option State :=
  match s.status with
  | .running => some s
  | .haltedNormally => some (s.setStatus .running)
  | .blockedOnInput => some (s.setStatus .running)
  | .outputRequestedStop => some (s.setStatus .running)
  | .faulted => none

/-- `snapshot`: a copy of `(mem, len, pc, rb, status, fault)`, and nothing of the environment (R145, R146). -/
def snapshot (s : State) : CoreState := s.toCoreState

/-- `restore(c)`: the whole core takes the values of the snapshot; the environment is not rewound (R146). -/
def restore (c : CoreState) (s : State) : State := { s with toCoreState := c }

/-- `run`, with any parameters of the core (R3): cycles while `status = Running`, and it returns in the first state that is
not `Running` (R83, R142). A run that never returns relates to no state (R149). -/
inductive RunsTo (p : Params) : State → State → Prop where
  | returns {s : State} (h : s.status ≠ .running) : RunsTo p s s
  | cycle {s t u : State} (hr : s.status = .running) (hs : stepWith p s = .next t) (h : RunsTo p t u) : RunsTo p s u

/-- The state after at most `n` cycles of `run`: it stops where `run` returns; `none` where a step gives no next state. -/
def runFor (p : Params) : Nat → State → Option State
  | 0, s => some s
  | n + 1, s =>
    if s.status = .running then
      match stepWith p s with
      | .next t => runFor p n t
      | .fault _ => none
      | .refused _ => none
    else some s

/-- The run from `s` never returns: after any number of cycles the core is `Running` (R83, R149). -/
def RunsForever (p : Params) (s : State) : Prop := ∀ n, ∃ t, runFor p n s = some t ∧ t.status = .running

end Sys2Proof.Machine
end

