-- ==== Sys2Proof/Safety.lean ====
section
/-! DEFINITION. The terms in which claims are stated: what a good run is (spec/70_reset_and_hazards.md R148;
spec/60_exceptions.md R129), the invariant of the machine, and the operands of an instruction as the table of the modes
gives them (spec/40_cycle_and_operands.md section 2), written from that table and not from the phases. -/

namespace Sys2Proof.Machine

/-- "Every claim about a program takes `status != Faulted` as part of what it must show" (spec/93 section 1). -/
def State.safe (s : State) : Prop := s.status ≠ .faulted

/-- "A program has terminated successfully exactly when `status = HaltedNormally`" (R148). -/
def State.terminatedSuccessfully (s : State) : Prop := s.status = .haltedNormally

/-- Which fields the record of each kind has (R121). -/
def FaultRecord.shaped (r : FaultRecord) : Prop :=
  match r.kind with
  | .pcRangeError => r.word = none ∧ r.param = none ∧ r.mode = none ∧ r.address = none ∧ r.reason = none
  | .unknownOpcodeError => r.word.isSome ∧ r.param = none ∧ r.mode = none ∧ r.address = none ∧ r.reason = none
  | .decodeError => r.word.isSome ∧ r.address = none ∧
      ((r.reason = some .highDigits ∧ r.param = none ∧ r.mode = none) ∨
       (r.reason = some .badMode ∧ r.param.isSome ∧ r.mode.isSome) ∨
       (r.reason = some .immediateDestination ∧ r.param.isSome ∧ r.mode = some 1))
  | .addressError => r.word.isSome ∧ r.param.isSome ∧ r.mode = none ∧ r.reason = none ∧ ∃ a, r.address = some a ∧ a < 0
  | .overflowError => r.word.isSome ∧ r.mode = none ∧ r.address = none ∧ r.reason = none

/-- Every cell lies at a legal address and holds a value (R5, R17, R30). -/
abbrev Memory.inRange (p : Params) (m : Memory) : Prop :=
  ∀ e ∈ m, (e.1 : Int) ≤ p.intMax ∧ p.InRange e.2

/-- The invariant of the machine: the memory in canonical form and in range (R5, R17, R34), `pc` and `rb` values (R12, R13), `len`
within its bound (R15), and the fault record present exactly when `Faulted` (R16, R22). -/
abbrev State.wf (p : Params) (s : State) : Prop :=
  Memory.wf s.mem ∧ Memory.inRange p s.mem ∧ p.InRange s.pc ∧ p.InRange s.rb ∧ (s.len : Int) ≤ p.maxImageLen ∧
    (s.fault.isSome ↔ s.status = .faulted)

/-- `EA(i)` by the table of the modes, where resolution and access both succeed; nothing where one of them faults. -/
def effectiveAddress (p : Params) (s : State) (i : Nat) (m : Mode) : Option Int :=
  match m with
  | .position => if 0 ≤ s.param i then some (s.param i) else none
  | .immediate => if 0 ≤ s.pc + i then some (s.pc + i) else none
  | .relative =>
    if p.relbaseEn = true ∧ p.InRange (s.param i + s.rb) ∧ 0 ≤ s.param i + s.rb then some (s.param i + s.rb) else none
  | .unrecognised _ => none

/-- `V(i)` of a source parameter that is readable (R80). -/
def sourceValue (p : Params) (s : State) (i : Nat) (m : Mode) : Option Int :=
  (effectiveAddress p s i m).map s.cell

/-- `EA(i)` of a destination parameter that is writable: never immediate (R79, R81). -/
def destAddress (p : Params) (s : State) (i : Nat) (m : Mode) : Option Int :=
  if m = .immediate then none else effectiveAddress p s i m

/-! ### The faults of a cycle, by the table of R135 -/

/-- What the table of the modes writes in the column `EA(i)`, before any check (R75 to R77); 0 stands for no address. -/
def addressFormula (s : State) (i : Nat) (m : Mode) : Int :=
  match m with
  | .position => s.param i
  | .immediate => s.pc + i
  | .relative => s.param i + s.rb
  | .unrecognised _ => 0

/-- The fault of resolution of parameter `i` (ranks 4 to 6): bad mode, else immediate destination, else overflow. -/
def resolveFault (p : Params) (s : State) (role : Role) (i : Nat) (m : Mode) : Option FaultRecord :=
  match m with
  | .position => none
  | .immediate => if role = .dst then some (s.immediateDestinationRecord i) else none
  | .relative =>
    if p.relbaseEn = false then some (s.badModeRecord i m)
    else if p.InRange (s.param i + s.rb) then none
    else some (s.resolveOverflowRecord i)
  | .unrecognised _ => some (s.badModeRecord i m)

/-- The fault of access of parameter `i` (rank 7): `EA(i) < 0`, source and destination alike. -/
def accessFault (s : State) (i : Nat) (m : Mode) : Option FaultRecord :=
  if addressFormula s i m < 0 then some (s.addressRecord i (addressFormula s i m)) else none

/-- The first fault of phases A and B (ranks 4 to 7): all of phase A before any of phase B, ascending in each. -/
def operandFault (p : Params) (s : State) (params : List (Role × Mode)) : Option FaultRecord :=
  ((params.zipIdx 1).findSome? fun e => resolveFault p s e.1.1 e.2 e.1.2).or
    ((params.zipIdx 1).findSome? fun e => accessFault s e.2 e.1.2)

/-- The result that phase C checks, for the three instructions that have one (rank 8; R92). -/
def checkedResult (s : State) (i : Instr) : Option Int :=
  match i with
  | .add m1 m2 _ => some (s.cell (addressFormula s 1 m1) + s.cell (addressFormula s 2 m2))
  | .mul m1 m2 _ => some (s.cell (addressFormula s 1 m1) * s.cell (addressFormula s 2 m2))
  | .adjustBase m1 => some (s.rb + s.cell (addressFormula s 1 m1))
  | .input _ => none
  | .output _ => none
  | .jumpIfTrue _ _ => none
  | .jumpIfFalse _ _ => none
  | .lessThan _ _ _ => none
  | .equals _ _ _ => none
  | .halt => none

/-- The fault of phase C (rank 8). -/
def operateFault (p : Params) (s : State) (i : Instr) : Option FaultRecord :=
  match checkedResult s i with
  | some r => if p.InRange r then none else some s.operateOverflowRecord
  | none => none

/-- The opcode of a word `w >= 0` is one of the ten, or of the nine that exist without the relative base (R59). -/
abbrev knownOpcode (p : Params) (w : Int) : Prop :=
  w % 100 ∈ [1, 2, 3, 4, 5, 6, 7, 8, 99] ∨ (w % 100 = 9 ∧ p.relbaseEn = true)

/-- The fault of a cycle: the first in the order of R135, highest priority first. -/
def firstFault (p : Params) (s : State) : Option FaultRecord :=
  if s.pc < 0 ∨ (s.len : Int) ≤ s.pc then some s.pcRangeRecord
  else if s.word < 0 ∨ ¬ knownOpcode p s.word then some s.unknownOpcodeRecord
  else if 100000 ≤ s.word then some s.highDigitsRecord
  else
    match decode p s.word with
    | .ok i => (operandFault p s i.params).or (operateFault p s i)
    | .error _ => none

end Sys2Proof.Machine
end

