-- ==== Sys2Proof/Certificates/Slice0/Obligations.lean ====
section
/-! DEFINITION. The statements for the provers: what the rules of spec/ say the instructions and the machine do. Each
docstring names the rule it formalises; OBLIGATIONS.json says the same with the rule's words. -/

open Sys2Proof Sys2Proof.Machine

/-! ### Encoding -/

/-- Words of the spec's table of decode vectors (95_test_vectors.md section 2.1) and what they decode to. -/
def Obligations.SpecWordsDecode : Prop :=
  decode Config.hardware 1002 = .ok (.mul .position .immediate .position) ∧
  decode Config.hardware 1101 = .ok (.add .immediate .immediate .position) ∧
  decode Config.hardware 21101 = .ok (.add .immediate .immediate .relative) ∧
  decode Config.hardware 204 = .ok (.output .relative) ∧
  decode Config.hardware 1104 = .ok (.output .immediate) ∧
  decode Config.hardware 7003 = .ok (.input .position) ∧
  decode Config.hardware 11105 = .ok (.jumpIfTrue .immediate .immediate) ∧
  decode Config.hardware 99999 = .ok .halt ∧
  decode Config.hardware 355 = .error .unknownOpcode ∧
  decode Config.hardware (-99) = .error .unknownOpcode ∧
  decode Config.hardware 100001 = .error .highDigits ∧
  decode Config.hardware 100055 = .error .unknownOpcode

/-- DECODE AND ENCODE AGREE: the decoder gives every instruction the machine has back from its word, every mode digit 0
to 9 of every parameter included, for both widths and with and without the relative base (R51, R53, R54). -/
def Obligations.DecodeOfEncodeIsTheInstruction : Prop :=
  ∀ (p : Params) (i : Instr), i.available p = true → decode p (encode i) = .ok i

/-- The other direction: a word that decodes is the canonical word of its instruction in the digits the instruction has
(two for the opcode and one for each parameter); only digits of absent parameters are dropped (R57). -/
def Obligations.EncodeOfDecodeKeepsTheUsedDigits : Prop :=
  ∀ (p : Params) (w : Int) (i : Instr), decode p w = .ok i →
    0 ≤ w ∧ w < 100000 ∧ i.available p = true ∧ encode i = w % 10 ^ (2 + i.params.length)

/-- What the decoder answers for a word, case by case: the opcode is the two low digits and the mode of parameter `k + 1`
is the digit of weight `10^(k+2)` (R51, R52, R58, R59). -/
def Obligations.DecoderReadsTheDecimalDigits : Prop :=
  ∀ (p : Params) (w : Int),
    (w < 0 → decode p w = .error .unknownOpcode) ∧
    (0 ≤ w → ¬ knownOpcode p w → decode p w = .error .unknownOpcode) ∧
    (0 ≤ w → knownOpcode p w → 100000 ≤ w → decode p w = .error .highDigits) ∧
    (0 ≤ w → knownOpcode p w → w < 100000 →
      ∃ i, decode p w = .ok i ∧ (i.opcode : Int) = w % 100 ∧
        ∀ k role m, i.params[k]? = some (role, m) → (m.digit : Int) = w / 10 ^ (k + 2) % 10)

/-! ### The cycle -/

/-- A STEP RUNS THE DECODED INSTRUCTION: a `Running` core whose `pc` is inside the image and whose word at `pc` decodes
to `i` steps as `exec i`; the step adds nothing around it, `pc` is advanced by the meaning (R70, R72, R73). -/
def Obligations.StepRunsTheDecodedInstruction : Prop :=
  ∀ (s : State) (i : Instr), s.status = .running → 0 ≤ s.pc → s.pc < (s.len : Int) →
    decode Config.hardware (s.mem.read s.pc.toNat) = .ok i → step s = exec i s

/-- R122: a cycle with `pc` outside `[0, len)` raises `PcRangeError`; nothing is read, the record holds `pc` alone. -/
def Obligations.PcOutsideTheImageFaults : Prop :=
  ∀ s : State, s.status = .running → (s.pc < 0 ∨ (s.len : Int) ≤ s.pc) →
    step s = .next { s with
      status := .faulted
      fault := some { kind := .pcRangeError, pc := s.pc, word := none, param := none, mode := none, address := none,
                      reason := none } }

/-- R52, R59: a negative word, or one whose two low digits are no known opcode, raises `UnknownOpcodeError(pc, w)` with
the whole word, whatever its mode digits are. -/
def Obligations.UnknownOpcodeFaults : Prop :=
  ∀ (p : Params) (s : State), s.status = .running → 0 ≤ s.pc → s.pc < (s.len : Int) →
    (s.word < 0 ∨ (s.word % 100 ∉ [1, 2, 3, 4, 5, 6, 7, 8, 99] ∧ ¬(s.word % 100 = 9 ∧ p.relbaseEn = true))) →
    stepWith p s = .next { s with
      status := .faulted
      fault := some { kind := .unknownOpcodeError, pc := s.pc, word := some s.word, param := none, mode := none,
                      address := none, reason := none } }

/-- R58: a known opcode with a non-zero digit above the ten-thousands digit raises `DecodeError(HighDigits)`. -/
def Obligations.HighDigitsFault : Prop :=
  ∀ (p : Params) (s : State), s.status = .running → 0 ≤ s.pc → s.pc < (s.len : Int) →
    100000 ≤ s.word → knownOpcode p s.word →
    stepWith p s = .next { s with
      status := .faulted
      fault := some { kind := .decodeError, pc := s.pc, word := some s.word, param := none, mode := none,
                      address := none, reason := some .highDigits } }

/-- R135: one cycle raises at most one fault, the first in the order of the table, and no fault where the table has none. -/
def Obligations.CycleReportsTheFirstFault : Prop :=
  ∀ (p : Params) (s : State), s.status = .running →
    (∀ r, firstFault p s = some r → stepWith p s = .next (s.raise r)) ∧
    (firstFault p s = none → ∀ t, stepWith p s = .next t → t.status ≠ .faulted)

/-- Every cycle of a `Running` core answers a next state, unless the environment offers a value outside the cell range
to an INPUT, which R19 and U13 rule out (the model's refusal, log entry 7). -/
def Obligations.RunningCoreAlwaysAnswers : Prop :=
  ∀ (p : Params) (s : State), s.status = .running →
    (∃ t, stepWith p s = .next t) ∨
      (stepWith p s = .refused .inputOutOfRange ∧ (∃ m, decode p s.word = .ok (.input m)) ∧
        ∃ v, pullAnswer p s.env = some v ∧ ¬ p.InRange v)

/-- The form the model gives to "in a wait state the core executes nothing; all state survives a wait unchanged" (R134):
a step of a halted or suspended core leaves everything as it is (log entry 8). -/
def Obligations.StoppedCoreExecutesNothing : Prop :=
  ∀ s : State, (s.status = .haltedNormally ∨ s.status = .blockedOnInput ∨ s.status = .outputRequestedStop) →
    step s = .next s

/-! ### The instructions -/

/-- R90, ADD: encoding; the sum stored and `pc + 4` whenever the operands are accessible and the sum lies in `Int`;
`OverflowError` when it does not; the first operand fault when there is one. -/
def Obligations.AddFollowsItsRule : Prop :=
  ∀ (m1 m2 m3 : Mode) (s : State),
    decode Config.hardware (1 + 100 * m1.digit + 1000 * m2.digit + 10000 * m3.digit) = .ok (.add m1 m2 m3) ∧
    (∀ a b d, sourceValue Config.hardware s 1 m1 = some a → sourceValue Config.hardware s 2 m2 = some b →
      destAddress Config.hardware s 3 m3 = some d →
      (Config.hardware.InRange (a + b) →
        exec (.add m1 m2 m3) s = .next { s with mem := s.mem.write d.toNat (a + b), pc := s.pc + 4 }) ∧
      (¬ Config.hardware.InRange (a + b) → exec (.add m1 m2 m3) s = .next (s.raise s.operateOverflowRecord))) ∧
    (∀ r, operandFault Config.hardware s [(.src, m1), (.src, m2), (.dst, m3)] = some r →
      exec (.add m1 m2 m3) s = .next (s.raise r))

/-- R91, MUL: as ADD with the full signed product. -/
def Obligations.MulFollowsItsRule : Prop :=
  ∀ (m1 m2 m3 : Mode) (s : State),
    decode Config.hardware (2 + 100 * m1.digit + 1000 * m2.digit + 10000 * m3.digit) = .ok (.mul m1 m2 m3) ∧
    (∀ a b d, sourceValue Config.hardware s 1 m1 = some a → sourceValue Config.hardware s 2 m2 = some b →
      destAddress Config.hardware s 3 m3 = some d →
      (Config.hardware.InRange (a * b) →
        exec (.mul m1 m2 m3) s = .next { s with mem := s.mem.write d.toNat (a * b), pc := s.pc + 4 }) ∧
      (¬ Config.hardware.InRange (a * b) → exec (.mul m1 m2 m3) s = .next (s.raise s.operateOverflowRecord))) ∧
    (∀ r, operandFault Config.hardware s [(.src, m1), (.src, m2), (.dst, m3)] = some r →
      exec (.mul m1 m2 m3) s = .next (s.raise r))

/-- R95, INPUT: encoding with any ignored digits; blocked with nothing of the core but `status` changed; the pulled value
stored and `pc + 2`; an operand fault before any pull. That the answer given is struck from `env` (`env.pulled`) is the
MODEL'S CHOICE (log entry 5), no clause of R95; an answer outside the cell range is `OutOfRangeInputIsRefused`'s. -/
def Obligations.InputFollowsItsRule : Prop :=
  ∀ (m1 : Mode) (s : State),
    (∀ x y : Nat, x < 10 → y < 10 →
      decode Config.hardware (3 + 100 * m1.digit + 1000 * x + 10000 * y) = .ok (.input m1)) ∧
    (∀ d, destAddress Config.hardware s 1 m1 = some d →
      (pullAnswer Config.hardware s.env = none →
        exec (.input m1) s = .next { s with status := .blockedOnInput, env := s.env.pulled }) ∧
      (∀ v, pullAnswer Config.hardware s.env = some v → Config.hardware.InRange v →
        exec (.input m1) s =
          .next { s with mem := s.mem.write d.toNat v, pc := s.pc + 2, env := s.env.pulled })) ∧
    (∀ r, operandFault Config.hardware s [(.dst, m1)] = some r → exec (.input m1) s = .next (s.raise r))

/-- R96, OUTPUT: encoding with any ignored digits; the value pushed once, `pc + 2`, and `OutputRequestedStop` when the
sink asks to stop; an operand fault pushes nothing. That the sink's answer is struck from `env` and the value listed in
`env.outputs` (`env.pushed`) is the MODEL'S CHOICE (log entries 5 and 6), no clause of R96. -/
def Obligations.OutputFollowsItsRule : Prop :=
  ∀ (m1 : Mode) (s : State),
    (∀ x y : Nat, x < 10 → y < 10 →
      decode Config.hardware (4 + 100 * m1.digit + 1000 * x + 10000 * y) = .ok (.output m1)) ∧
    (∀ v, sourceValue Config.hardware s 1 m1 = some v →
      (s.env.pushed v).outputs = s.env.outputs ++ [v] ∧
      (stopAnswer s.env = false →
        exec (.output m1) s = .next { s with pc := s.pc + 2, env := s.env.pushed v }) ∧
      (stopAnswer s.env = true →
        exec (.output m1) s =
          .next { s with pc := s.pc + 2, status := .outputRequestedStop, env := s.env.pushed v })) ∧
    (∀ r, operandFault Config.hardware s [(.src, m1)] = some r → exec (.output m1) s = .next (s.raise r))

/-- R100, JUMP-IF-TRUE: encoding; both operands read in any case, so an untaken jump with an inaccessible target operand
still faults; the target is written whatever value it is. -/
def Obligations.JumpIfTrueFollowsItsRule : Prop :=
  ∀ (m1 m2 : Mode) (s : State),
    (∀ x : Nat, x < 10 →
      decode Config.hardware (5 + 100 * m1.digit + 1000 * m2.digit + 10000 * x) = .ok (.jumpIfTrue m1 m2)) ∧
    (∀ c t, sourceValue Config.hardware s 1 m1 = some c → sourceValue Config.hardware s 2 m2 = some t →
      (c ≠ 0 → exec (.jumpIfTrue m1 m2) s = .next { s with pc := t }) ∧
      (c = 0 → exec (.jumpIfTrue m1 m2) s = .next { s with pc := s.pc + 3 })) ∧
    (∀ r, operandFault Config.hardware s [(.src, m1), (.src, m2)] = some r →
      exec (.jumpIfTrue m1 m2) s = .next (s.raise r))

/-- R101, JUMP-IF-FALSE: as JUMP-IF-TRUE with the condition inverted. -/
def Obligations.JumpIfFalseFollowsItsRule : Prop :=
  ∀ (m1 m2 : Mode) (s : State),
    (∀ x : Nat, x < 10 →
      decode Config.hardware (6 + 100 * m1.digit + 1000 * m2.digit + 10000 * x) = .ok (.jumpIfFalse m1 m2)) ∧
    (∀ c t, sourceValue Config.hardware s 1 m1 = some c → sourceValue Config.hardware s 2 m2 = some t →
      (c = 0 → exec (.jumpIfFalse m1 m2) s = .next { s with pc := t }) ∧
      (c ≠ 0 → exec (.jumpIfFalse m1 m2) s = .next { s with pc := s.pc + 3 })) ∧
    (∀ r, operandFault Config.hardware s [(.src, m1), (.src, m2)] = some r →
      exec (.jumpIfFalse m1 m2) s = .next (s.raise r))

/-- R105, LESS-THAN: encoding; 1 stored when `V(1) < V(2)` as signed values and 0 when not; no fault of its own. -/
def Obligations.LessThanFollowsItsRule : Prop :=
  ∀ (m1 m2 m3 : Mode) (s : State),
    decode Config.hardware (7 + 100 * m1.digit + 1000 * m2.digit + 10000 * m3.digit) = .ok (.lessThan m1 m2 m3) ∧
    (∀ a b d, sourceValue Config.hardware s 1 m1 = some a → sourceValue Config.hardware s 2 m2 = some b →
      destAddress Config.hardware s 3 m3 = some d →
      (a < b → exec (.lessThan m1 m2 m3) s = .next { s with mem := s.mem.write d.toNat 1, pc := s.pc + 4 }) ∧
      (b ≤ a → exec (.lessThan m1 m2 m3) s = .next { s with mem := s.mem.write d.toNat 0, pc := s.pc + 4 })) ∧
    (∀ r, operandFault Config.hardware s [(.src, m1), (.src, m2), (.dst, m3)] = some r →
      exec (.lessThan m1 m2 m3) s = .next (s.raise r))

/-- R106, EQUALS: encoding; 1 stored when the two whole values are equal and 0 when not; no fault of its own. -/
def Obligations.EqualsFollowsItsRule : Prop :=
  ∀ (m1 m2 m3 : Mode) (s : State),
    decode Config.hardware (8 + 100 * m1.digit + 1000 * m2.digit + 10000 * m3.digit) = .ok (.equals m1 m2 m3) ∧
    (∀ a b d, sourceValue Config.hardware s 1 m1 = some a → sourceValue Config.hardware s 2 m2 = some b →
      destAddress Config.hardware s 3 m3 = some d →
      (a = b → exec (.equals m1 m2 m3) s = .next { s with mem := s.mem.write d.toNat 1, pc := s.pc + 4 }) ∧
      (a ≠ b → exec (.equals m1 m2 m3) s = .next { s with mem := s.mem.write d.toNat 0, pc := s.pc + 4 })) ∧
    (∀ r, operandFault Config.hardware s [(.src, m1), (.src, m2), (.dst, m3)] = some r →
      exec (.equals m1 m2 m3) s = .next (s.raise r))

/-- R110, ADJUST-BASE: encoding with any ignored digits, unknown without the relative base; the operand added to `rb`,
its address formed with the old `rb`; `OverflowError` when the sum is outside `Int`. -/
def Obligations.AdjustBaseFollowsItsRule : Prop :=
  ∀ (m1 : Mode) (s : State),
    (∀ x y : Nat, x < 10 → y < 10 →
      decode Config.hardware (9 + 100 * m1.digit + 1000 * x + 10000 * y) = .ok (.adjustBase m1) ∧
      ∀ p : Params, p.relbaseEn = false →
        decode p (9 + 100 * m1.digit + 1000 * x + 10000 * y) = .error .unknownOpcode) ∧
    (∀ v, sourceValue Config.hardware s 1 m1 = some v →
      (Config.hardware.InRange (s.rb + v) →
        exec (.adjustBase m1) s = .next { s with rb := s.rb + v, pc := s.pc + 2 }) ∧
      (¬ Config.hardware.InRange (s.rb + v) →
        exec (.adjustBase m1) s = .next (s.raise s.operateOverflowRecord))) ∧
    (∀ r, operandFault Config.hardware s [(.src, m1)] = some r → exec (.adjustBase m1) s = .next (s.raise r))

/-- R111, HALT: every word `x x x 99` is HALT; only `status` changes, `pc` stays at the HALT. -/
def Obligations.HaltFollowsItsRule : Prop :=
  (∀ x y z : Nat, x < 10 → y < 10 → z < 10 →
    decode Config.hardware (99 + 100 * x + 1000 * y + 10000 * z) = .ok .halt) ∧
  ∀ s : State, exec .halt s = .next { s with status := .haltedNormally }

/-- U13, R19 (log entry 7): an INPUT that is not faulting, offered a value outside the cell range, is refused by name;
this is where the model stops, and no value is truncated. -/
def Obligations.OutOfRangeInputIsRefused : Prop :=
  ∀ (m1 : Mode) (s : State) (d v : Int), destAddress Config.hardware s 1 m1 = some d →
    pullAnswer Config.hardware s.env = some v → ¬ Config.hardware.InRange v →
    exec (.input m1) s = .refused .inputOutOfRange

/-! ### Where an instruction faults -/

/-- R78: a mode digit 3 to 9 on a parameter the instruction has raises `DecodeError(BadMode)` with that parameter and
digit, unless resolving a lower-numbered parameter faults. -/
def Obligations.BadModeFaults : Prop :=
  ∀ (i : Instr) (s : State) (n : Nat) (role : Role) (k : Fin 7),
    i.params[n]? = some (role, .unrecognised k) →
    (∀ j r m, j < n → i.params[j]? = some (r, m) → resolveFault Config.hardware s r (j + 1) m = none) →
    exec i s = .next { s with
      status := .faulted
      fault := some { kind := .decodeError, pc := s.pc, word := some s.word, param := some (n + 1),
                      mode := some (3 + k.val), address := none, reason := some .badMode } }

/-- R79: mode 1 on the destination parameter raises `DecodeError(ImmediateDestination)` and writes nothing, unless
resolving a lower-numbered parameter faults. -/
def Obligations.ImmediateDestinationFaults : Prop :=
  ∀ (i : Instr) (s : State) (n : Nat),
    i.params[n]? = some (.dst, .immediate) →
    (∀ j r m, j < n → i.params[j]? = some (r, m) → resolveFault Config.hardware s r (j + 1) m = none) →
    exec i s = .next { s with
      status := .faulted
      fault := some { kind := .decodeError, pc := s.pc, word := some s.word, param := some (n + 1),
                      mode := some 1, address := none, reason := some .immediateDestination } }

/-- R77: in mode 2 a sum of parameter word and `rb` outside `Int` raises `OverflowError` with the parameter, unless
resolving a lower-numbered parameter faults. -/
def Obligations.RelativeAddressOverflowFaults : Prop :=
  ∀ (i : Instr) (s : State) (n : Nat) (role : Role),
    i.params[n]? = some (role, .relative) →
    (∀ j r m, j < n → i.params[j]? = some (r, m) → resolveFault Config.hardware s r (j + 1) m = none) →
    ¬ Config.hardware.InRange (s.param (n + 1) + s.rb) →
    exec i s = .next { s with
      status := .faulted
      fault := some { kind := .overflowError, pc := s.pc, word := some s.word, param := some (n + 1),
                      mode := none, address := none, reason := none } }

/-- R125: when every parameter resolves, the lowest parameter whose effective address is negative raises `AddressError`
with that address, source and destination alike. -/
def Obligations.NegativeAddressFaults : Prop :=
  ∀ (i : Instr) (s : State) (n : Nat) (role : Role) (m : Mode),
    i.params[n]? = some (role, m) → addressFormula s (n + 1) m < 0 →
    (∀ j r m', i.params[j]? = some (r, m') → resolveFault Config.hardware s r (j + 1) m' = none) →
    (∀ j r m', j < n → i.params[j]? = some (r, m') → 0 ≤ addressFormula s (j + 1) m') →
    exec i s = .next { s with
      status := .faulted
      fault := some { kind := .addressError, pc := s.pc, word := some s.word, param := some (n + 1),
                      mode := none, address := some (addressFormula s (n + 1) m), reason := none } }

/-- R126: a fault writes `status` and `fault` and nothing else: no cell, no register, no port. -/
def Obligations.FaultsArePrecise : Prop :=
  ∀ (p : Params) (s t : State), s.status ≠ .faulted → stepWith p s = .next t → t.status = .faulted →
    ∃ r, t = { s with status := .faulted, fault := some r }

/-- R121: the record a fault writes has exactly the fields the table gives its kind. -/
def Obligations.FaultRecordsHaveTheFieldsOfTheirKind : Prop :=
  ∀ (p : Params) (s t : State), s.status ≠ .faulted → stepWith p s = .next t → t.status = .faulted →
    ∃ r, t.fault = some r ∧ r.pc = s.pc ∧ r.shaped ∧ ∀ w, r.word = some w → w = s.word

/-- R129: `Faulted` is sticky: no step, no run and no resume leaves it; load and restore replace the state. That a step
asked of a `Faulted` core answers the fault outcome, with the record the core holds, is the MODEL'S CHOICE (log entry 8). -/
def Obligations.FaultedIsSticky : Prop :=
  ∀ (p : Params) (s : State), s.status = .faulted →
    stepWith p s = .fault (.coreFaulted s.fault) ∧ resume s = none ∧ (∀ t, RunsTo p s t → t = s) ∧
    (∀ image, admissible p image → ∃ t, load p image s = some t ∧ t.status = .running ∧ t.fault = none) ∧
    ∀ c : CoreState, (restore c s).toCoreState = c

/-! ### Frames -/

/-- Frame of ADD, MUL, LESS-THAN, EQUALS: `rb`, `len`, the environment unchanged; `status` and `fault` unchanged unless
the instruction faults; every cell but the one at the resolved destination reads as before. -/
def Obligations.FrameOfTheStoringInstructions : Prop :=
  ∀ (m1 m2 m3 : Mode) (s t : State) (i : Instr),
    i ∈ [Instr.add m1 m2 m3, .mul m1 m2 m3, .lessThan m1 m2 m3, .equals m1 m2 m3] → exec i s = .next t →
    t.rb = s.rb ∧ t.len = s.len ∧ t.env = s.env ∧
    ((t.status = s.status ∧ t.fault = s.fault) ∨ ∃ r, t = s.raise r) ∧
    ∀ a : Nat, (∀ d, resolve Config.hardware s .dst 3 m3 = .ok d → a ≠ d.toNat) →
      Memory.read t.mem a = Memory.read s.mem a

/-- Frame of INPUT: `rb`, `len` and the values pushed unchanged; every cell but the one at the resolved destination reads
as before; when it blocks or faults, every cell and `pc` are unchanged. -/
def Obligations.FrameOfInput : Prop :=
  ∀ (m1 : Mode) (s t : State), exec (.input m1) s = .next t →
    t.rb = s.rb ∧ t.len = s.len ∧ t.env.outputs = s.env.outputs ∧ t.env.stops = s.env.stops ∧
    ((t.status = s.status ∧ t.fault = s.fault) ∨
      (t.status = .blockedOnInput ∧ t.fault = s.fault ∧ t.mem = s.mem ∧ t.pc = s.pc) ∨ ∃ r, t = s.raise r) ∧
    ∀ a : Nat, (∀ d, resolve Config.hardware s .dst 1 m1 = .ok d → a ≠ d.toNat) →
      Memory.read t.mem a = Memory.read s.mem a

/-- Frame of the instructions that store nothing: OUTPUT, the jumps, ADJUST-BASE and HALT change no cell and not `len`;
`rb` only ADJUST-BASE, the environment only OUTPUT, `status` only OUTPUT and HALT, a fault apart. -/
def Obligations.FrameOfTheInstructionsThatStoreNothing : Prop :=
  ∀ (m1 m2 : Mode) (s t : State) (i : Instr),
    i ∈ [Instr.output m1, .jumpIfTrue m1 m2, .jumpIfFalse m1 m2, .adjustBase m1, .halt] → exec i s = .next t →
    (∀ a : Nat, Memory.read t.mem a = Memory.read s.mem a) ∧ t.len = s.len ∧
    (i ≠ .adjustBase m1 → t.rb = s.rb) ∧
    (i ≠ .output m1 → t.env = s.env) ∧
    ((t.fault = s.fault ∧ (i ≠ .output m1 → i ≠ .halt → t.status = s.status)) ∨ ∃ r, t = s.raise r)

/-! ### Rules over the whole machine -/

/-- R144: the transitions of `status`. From `Running` each state is reached by its event alone, a fault of the cycle
leading to `Faulted` and nowhere else; a step of a core that is not `Running` changes nothing; resume, load and restore do
what the table says. -/
def Obligations.StatusTransitionsAreThoseOfTheTable : Prop :=
  ∀ p : Params,
  (∀ s t : State, s.status = .running → stepWith p s = .next t →
    (t.status = .haltedNormally → firstFault p s = none ∧ decode p s.word = .ok .halt) ∧
    (t.status = .blockedOnInput →
      firstFault p s = none ∧ (∃ m, decode p s.word = .ok (.input m)) ∧ pullAnswer p s.env = none) ∧
    (t.status = .outputRequestedStop →
      firstFault p s = none ∧ (∃ m, decode p s.word = .ok (.output m)) ∧ stopAnswer s.env = true) ∧
    (t.status = .faulted → ∃ r, firstFault p s = some r) ∧
    (t.status = .running →
      firstFault p s = none ∧ decode p s.word ≠ .ok .halt ∧
      ((∃ m, decode p s.word = .ok (.input m)) → pullAnswer p s.env ≠ none) ∧
      ((∃ m, decode p s.word = .ok (.output m)) → stopAnswer s.env = false))) ∧
  (∀ s t : State, s.status ≠ .running → stepWith p s = .next t → t = s) ∧
  (∀ s t : State, resume s = some t → s.status ≠ .faulted ∧ t.status = .running) ∧
  (∀ s : State, s.status = .faulted → resume s = none) ∧
  (∀ (image : List Int) (s t : State), load p image s = some t → t.status = .running) ∧
  ∀ (c : CoreState) (s : State), (restore c s).status = c.status

/-- R102: the two jumps are the only instructions that write `pc` with anything but `pc + length`; HALT, a blocked INPUT
and a fault leave it. -/
def Obligations.PcAdvancesByTheLengthExceptForJumps : Prop :=
  ∀ (s t : State) (i : Instr), exec i s = .next t →
    t.pc = s.pc + i.length ∨
    (t.pc = s.pc ∧ (i = .halt ∨ (∃ m, i = .input m ∧ t.status = .blockedOnInput) ∨ ∃ r, t = s.raise r)) ∨
    ∃ m1 m2, (i = .jumpIfTrue m1 m2 ∨ i = .jumpIfFalse m1 m2) ∧ sourceValue Config.hardware s 2 m2 = some t.pc

/-- R13, "mutated only by the adjust relative base opcode": a step that changes `rb` ran an ADJUST-BASE. -/
def Obligations.OnlyAdjustBaseChangesRb : Prop :=
  ∀ (p : Params) (s t : State), stepWith p s = .next t → t.rb ≠ s.rb →
    ∃ m, decode p s.word = .ok (.adjustBase m)

/-- R15: `len` is written by load and never afterwards: not by any step, nor along any run. -/
def Obligations.LenIsWrittenByLoadAlone : Prop :=
  ∀ p : Params,
  (∀ s t : State, stepWith p s = .next t → t.len = s.len) ∧
  (∀ s t : State, RunsTo p s t → t.len = s.len) ∧
  ∀ (image : List Int) (s t : State), load p image s = some t → t.len = image.length

/-- R20: along a run the values pushed only grow at the end: what has been pushed is never taken back or reordered. The
list `env.outputs` is the MODEL'S record of the sink's side (log entry 6). -/
def Obligations.OutputsOnlyGrow : Prop :=
  ∀ (p : Params) (s t : State), RunsTo p s t → ∃ vs, t.env.outputs = s.env.outputs ++ vs

/-- Only OUTPUT pushes, and an OUTPUT that completes pushes exactly one value, its operand (R20, R96): a step leaves the
values pushed or ran an OUTPUT and appended one, and a cycle whose word is an OUTPUT and that does not fault appended one.
The list `env.outputs` is the MODEL'S record of the sink's side (log entry 6). -/
def Obligations.OnlyOutputPushesAndPushesOnce : Prop :=
  ∀ (p : Params) (s t : State), stepWith p s = .next t →
    (t.env.outputs = s.env.outputs ∨
      ∃ m v, decode p s.word = .ok (.output m) ∧ sourceValue p s 1 m = some v ∧
        t.env.outputs = s.env.outputs ++ [v]) ∧
    ∀ m, s.status = .running → decode p s.word = .ok (.output m) → t.status ≠ .faulted →
      ∃ v, sourceValue p s 1 m = some v ∧ t.env.outputs = s.env.outputs ++ [v]

/-- The reset state meets the invariant of the machine (R22: the fields the load of the empty image leaves; log entry 4). -/
def Obligations.ResetMeetsTheInvariant : Prop := State.wf Config.hardware State.reset

/-- THE INVARIANT THAT EVERY STEP KEEPS, for both widths: the memory stays in canonical form with every cell at a legal
address and in range, `pc` and `rb` stay values, `len` stays in its bound, and the fault record is there exactly when
the core is `Faulted` (R5, R12, R13, R15, R16, R17, R34). -/
def Obligations.EveryStepKeepsTheInvariant : Prop :=
  ∀ (p : Params) (s t : State), State.wf p s → stepWith p s = .next t → State.wf p t

/-- The host's operations keep the invariant too: load, resume, and restore of a state that meets it (R140, R143, R146). -/
def Obligations.HostOperationsKeepTheInvariant : Prop :=
  ∀ (p : Params) (s : State), State.wf p s →
    (∀ (image : List Int) (t : State), load p image s = some t → State.wf p t) ∧
    (∀ t : State, resume s = some t → State.wf p t) ∧
    ∀ u : State, State.wf p u → State.wf p (restore (snapshot u) s)

/-- R35: the three memory laws. -/
def Obligations.MemoryLaws : Prop :=
  (∀ (m : Memory) (a : Nat) (v : Int), Memory.read (m.write a v) a = v) ∧
  (∀ (m : Memory) (a b : Nat) (v : Int), b ≠ a → Memory.read (m.write a v) b = Memory.read m b) ∧
  ∀ (image : List Int) (s t : State) (a : Nat), load Config.hardware image s = some t →
    Memory.read t.mem a = image.getD a 0

/-- Two memories in canonical form that agree at every address are equal: "two memories are equal when they agree at every
address" (R34). -/
def Obligations.CanonicalMemoriesAreExtensional : Prop :=
  ∀ m n : Memory, Memory.wf m → Memory.wf n → (∀ a, Memory.read m a = Memory.read n a) → m = n

/-- R32, R33: a read or a write faults exactly when the address is negative, with the address in the record; no other
address fails, however large. -/
def Obligations.MemoryAccessFaultsExactlyBelowZero : Prop :=
  ∀ (s : State) (i : Nat) (ea : Int),
    (ea < 0 → getSource s i ea = .error (s.addressRecord i ea) ∧ checkDest s i ea = .error (s.addressRecord i ea)) ∧
    (0 ≤ ea → getSource s i ea = .ok (Memory.read s.mem ea.toNat) ∧ checkDest s i ea = .ok ea)

/-- R6: checked arithmetic is the exact result when it lies in `Int` and nothing otherwise, for both widths. -/
def Obligations.CheckedArithmeticIsExactOrNothing : Prop :=
  ∀ (p : Params) (a b : Int),
    (p.InRange (a + b) → addChk p a b = some (a + b)) ∧ (¬ p.InRange (a + b) → addChk p a b = none) ∧
    (p.InRange (a * b) → mulChk p a b = some (a * b)) ∧ (¬ p.InRange (a * b) → mulChk p a b = none)

/-- R44: a store is seen by the next cycle, by its fetch and by its reads of parameter words: each of the five storing
instructions that completes with its destination at the next instruction's word (`k = 0`) or at a later cell leaves the
stored value there for that cycle, even when the cell was part of the instruction stream already. -/
def Obligations.StoreIsSeenByTheNextFetch : Prop :=
  (∀ (m1 m2 m3 : Mode) (s t : State) (a b : Int) (k : Nat),
    sourceValue Config.hardware s 1 m1 = some a → sourceValue Config.hardware s 2 m2 = some b →
    destAddress Config.hardware s 3 m3 = some (s.pc + 4 + k) → t.status = .running →
    (exec (.add m1 m2 m3) s = .next t → t.param k = a + b ∧ (k = 0 → t.word = a + b)) ∧
    (exec (.mul m1 m2 m3) s = .next t → t.param k = a * b ∧ (k = 0 → t.word = a * b)) ∧
    (exec (.lessThan m1 m2 m3) s = .next t →
      t.param k = (if a < b then 1 else 0) ∧ (k = 0 → t.word = if a < b then 1 else 0)) ∧
    (exec (.equals m1 m2 m3) s = .next t →
      t.param k = (if a = b then 1 else 0) ∧ (k = 0 → t.word = if a = b then 1 else 0))) ∧
  ∀ (m1 : Mode) (s t : State) (v : Int) (k : Nat),
    destAddress Config.hardware s 1 m1 = some (s.pc + 2 + k) → pullAnswer Config.hardware s.env = some v →
    t.status = .running → exec (.input m1) s = .next t → t.param k = v ∧ (k = 0 → t.word = v)

/-- R84: only the instruction word's address is checked against `len`: what an instruction does does not depend on `len`,
so parameters beyond the image are read as ordinary cells. -/
def Obligations.InstructionsDoNotLookAtLen : Prop :=
  ∀ (i : Instr) (s t : State) (n : Nat), exec i s = .next t → exec i { s with len := n } = .next { t with len := n }

/-- R85: given the core at the top of a cycle and the environment's answer to the at most one port call the instruction
makes (to a pull where the word is an INPUT, to a push where it is an OUTPUT, to nothing elsewhere), the core after the
cycle is determined, whatever else the two environments hold. -/
def Obligations.CycleIsAFunctionOfCoreAndAnswers : Prop :=
  ∀ (p : Params) (s s' t : State), s.toCoreState = s'.toCoreState →
    ((∃ m, decode p s.word = .ok (.input m)) → pullAnswer p s.env = pullAnswer p s'.env) →
    ((∃ m, decode p s.word = .ok (.output m)) → stopAnswer s.env = stopAnswer s'.env) →
    stepWith p s = .next t → ∃ t', stepWith p s' = .next t' ∧ t'.toCoreState = t.toCoreState

/-- R4: this hardware has the relative base; without it opcode 9 is an unknown opcode, mode 2 is a bad mode on every
parameter, and no step changes `rb`. -/
def Obligations.WithoutRelativeBase : Prop :=
  Config.hardware.relbaseEn = true ∧
  ∀ p : Params, p.relbaseEn = false →
    (∀ w : Int, 0 ≤ w → w % 100 = 9 → decode p w = .error .unknownOpcode) ∧
    (∀ (s : State) (role : Role) (i : Nat), resolve p s role i .relative = .error (s.badModeRecord i .relative)) ∧
    ∀ s t : State, stepWith p s = .next t → t.rb = s.rb

/-- The 16-digit product of the document's worked example (95_test_vectors.md S6, V-MUL-7): `XLEN = 64` stores it,
`XLEN = 32` raises `OverflowError`. -/
def Obligations.LargeProductNeedsWideCells : Prop :=
  ∀ s : State, s.pc = 0 → s.param 1 = 34915192 → s.param 2 = 34915192 → s.param 3 = 7 →
    mulWith ⟨.w64, true⟩ .immediate .immediate .position s =
      .next { s with mem := s.mem.write 7 1219070632396864, pc := 4 } ∧
    mulWith ⟨.w32, true⟩ .immediate .immediate .position s = .next (s.raise s.operateOverflowRecord)

/-! ### The control port -/

/-- R140: load accepts exactly the admissible images; then every cell holds the image or 0, `len` its length, `pc` and
`rb` are 0, `status` is `Running` and no fault is recorded, whatever stood there before. -/
def Obligations.LoadIsReset : Prop :=
  ∀ (p : Params) (image : List Int) (s : State),
    (¬((∀ v ∈ image, p.InRange v) ∧ (image.length : Int) ≤ p.intMax - 3) → load p image s = none) ∧
    ((∀ v ∈ image, p.InRange v) → (image.length : Int) ≤ p.intMax - 3 →
      ∃ t, load p image s = some t ∧ (∀ a, Memory.read t.mem a = image.getD a 0) ∧ t.len = image.length ∧
        t.pc = 0 ∧ t.rb = 0 ∧ t.status = .running ∧ t.fault = none ∧
        ∀ s' t', load p image s' = some t' → t'.toCoreState = t.toCoreState)

/-- R143: resume by `status` before: it sets `status` to `Running` and changes nothing else, and refuses a `Faulted` core;
a halted core that resumes halts again at once. -/
def Obligations.ResumeByStatus : Prop :=
  ∀ (p : Params) (s : State),
    (s.status ≠ .faulted → resume s = some { s with status := .running }) ∧
    (s.status = .faulted → resume s = none) ∧
    (s.status = .haltedNormally → 0 ≤ s.pc → s.pc < (s.len : Int) → decode p s.word = .ok .halt →
      ∃ t, resume s = some t ∧ RunsTo p t s)

/-- R97: blocking and resuming is transparent: an INPUT answered none, resumed, and answered `v` leaves the very state of
an INPUT answered `v` at once; and a stop request followed by resume leaves what no stop request leaves. The answers are
written as the scripts `env.pulls` and `env.stops`, which is the MODEL'S CHOICE (log entry 5). -/
def Obligations.ResumptionIsTransparent : Prop :=
  ∀ (s : State) (m : Mode), s.status = .running → 0 ≤ s.pc → s.pc < (s.len : Int) →
    (decode Config.hardware s.word = .ok (.input m) →
      ∀ v rest d, Config.hardware.InRange v → destAddress Config.hardware s 1 m = some d →
        s.env.pulls = none :: some v :: rest →
        ∃ b c t, step s = .next b ∧ b.status = .blockedOnInput ∧ resume b = some c ∧ step c = .next t ∧
          step { s with env := { s.env with pulls := some v :: rest } } = .next t) ∧
    (decode Config.hardware s.word = .ok (.output m) →
      ∀ v rest, sourceValue Config.hardware s 1 m = some v → s.env.stops = true :: rest →
        ∃ b c, step s = .next b ∧ b.status = .outputRequestedStop ∧ resume b = some c ∧
          step { s with env := { s.env with stops := false :: rest } } = .next c)

/-- R146: restore of a snapshot gives every field of the core the value it had when the snapshot was taken, whatever ran
in between, and does not rewind the environment. -/
def Obligations.RestoreBringsBackTheWholeCore : Prop :=
  ∀ s t : State,
    (restore (snapshot s) t).mem = s.mem ∧ (restore (snapshot s) t).len = s.len ∧
    (restore (snapshot s) t).pc = s.pc ∧ (restore (snapshot s) t).rb = s.rb ∧
    (restore (snapshot s) t).status = s.status ∧ (restore (snapshot s) t).fault = s.fault ∧
    (restore (snapshot s) t).env = t.env

/-- R83, R149: the run loop has no bound: a jump to itself (`1105, 1, t` at address `t`) runs for ever. -/
def Obligations.JumpToItselfRunsForever : Prop :=
  ∀ (p : Params) (s : State), s.status = .running → 0 ≤ s.pc → s.pc < (s.len : Int) → s.word = 1105 →
    s.param 1 = 1 → s.param 2 = s.pc → RunsForever p s

/-- R148: a run that ends `HaltedNormally` ends with `pc` at a cell that holds a HALT word inside the image. -/
def Obligations.SuccessfulRunEndsAtAHalt : Prop :=
  ∀ (p : Params) (s t : State), s.status = .running → RunsTo p s t → t.terminatedSuccessfully →
    0 ≤ t.pc ∧ t.pc < (t.len : Int) ∧ decode p t.word = .ok .halt

/-- `run` (R142, R83, R149): it returns in `t` exactly when some number of cycles leads to `t` and `t` is not `Running`,
and then in no other state and never goes on; and from every state it returns, or goes on for ever, or comes to an INPUT
that is offered a value outside the cell range (the model's refusal, log entry 7): no cycle of a run ends in anything
else. -/
def Obligations.RunReturnsOrGoesOnForever : Prop :=
  ∀ (p : Params) (s : State),
    (∀ t, RunsTo p s t ↔ ∃ n, runFor p n s = some t ∧ t.status ≠ .running) ∧
    (∀ t, RunsTo p s t → ¬ RunsForever p s ∧ ∀ u, RunsTo p s u → u = t) ∧
    ((∃ t, RunsTo p s t) ∨ RunsForever p s ∨
      ∃ n u, runFor p n s = some u ∧ u.status = .running ∧ stepWith p u = .refused .inputOutOfRange)

/-- How a table word comes to run (log entries 4 and 13; the model's own placing, not a rule of the spec): the step after
it is placed runs the instruction it decodes to, from any state. -/
def Obligations.PlacedTableWordRunsNext : Prop :=
  ∀ (s : State) (nbits w : Nat) (i : Instr), decodeTableWord nbits w = some i →
    step (s.withFetchWord nbits w) = exec i (s.withFetchWord nbits w)

/-- R3, R4: this hardware is the core with `XLEN = 64` and the relative base; its step is the step with those parameters,
and the core with any parameters runs the decoded instruction with them. -/
def Obligations.ThisHardwareIsAnInstanceOfTheCore : Prop :=
  Config.hardware = ⟨.w64, true⟩ ∧ (∀ s : State, step s = stepWith Config.hardware s) ∧
  ∀ (p : Params) (s : State) (i : Instr), s.status = .running → 0 ≤ s.pc → s.pc < (s.len : Int) →
    decode p s.word = .ok i → stepWith p s = execWith p i s
end

