-- ==== Sys2Proof/Laws/Control.lean ====
section
/-! SUPPORT. What a run can do: the induction over its cycles packaged once, and `runFor` cycle by cycle
(spec/70_reset_and_hazards.md R142). -/

namespace Sys2Proof.Machine

/-- What every cycle of a run keeps holds where the run returns. -/
theorem RunsTo.keeps {p : Params} {P : State → Prop}
    (hstep : ∀ {s t : State}, s.status = .running → stepWith p s = .next t → P s → P t) {s t : State}
    (h : RunsTo p s t) (hs : P s) : P t := by
  induction h with
  | returns _ => exact hs
  | cycle hr hn _ ih => exact ih (hstep hr hn hs)

/-- A core that is not `Running` is returned as it is. -/
theorem RunsTo.of_stopped {p : Params} {s t : State} (hs : s.status ≠ .running) (h : RunsTo p s t) : t = s := by
  cases h with
  | returns _ => rfl
  | cycle hr _ _ => exact absurd hr hs

/-- A run from a `Running` core is a cycle and the run from where it leads. -/
theorem RunsTo.of_running {p : Params} {s u : State} (hs : s.status = .running) (h : RunsTo p s u) :
    ∃ t, stepWith p s = .next t ∧ RunsTo p t u := by
  cases h with
  | returns hn => exact absurd hs hn
  | cycle _ hn h => exact ⟨_, hn, h⟩

/-- `runFor` goes on where `run` does. -/
theorem runFor_running {p : Params} {s t : State} (hs : s.status = .running) (hn : stepWith p s = .next t) (n : Nat) :
    runFor p (n + 1) s = runFor p n t := by
  simp only [runFor, hs, if_true, hn]

/-- `runFor` stops where `run` does. -/
theorem runFor_stopped {p : Params} {s : State} (hs : s.status ≠ .running) (n : Nat) : runFor p n s = some s := by
  cases n with
  | zero => rfl
  | succ n => simp only [runFor, if_neg hs]

/-- One cycle more, at the end. -/
theorem runFor_then_cycle {p : Params} {t u : State} (ht : t.status = .running) (hn : stepWith p t = .next u) {n : Nat} :
    ∀ {s : State}, runFor p n s = some t → runFor p (n + 1) s = some u := by
  induction n with
  | zero =>
    intro s h
    cases h
    rw [runFor_running ht hn]
    rfl
  | succ n ih =>
    intro s h
    by_cases hs : s.status = .running
    · cases hx : stepWith p s with
      | next a =>
        rw [runFor_running hs hx] at h ⊢
        exact ih h
      | fault r => simp [runFor, hs, hx] at h
      | refused r => simp [runFor, hs, hx] at h
    · rw [runFor_stopped hs] at h
      cases h
      exact absurd ht hs

end Sys2Proof.Machine
end

