-- ==== Sys2Proof/Laws/Decode.lean ====
section
/-! SUPPORT. The arithmetic of the decoder on non-negative words, in the operators that `omega` reads
(spec/00_scope.md R7), and the digits of a mode (spec/30_encoding.md R56). -/

namespace Sys2Proof

theorem quot_of_nonneg {w : Int} (h : 0 ≤ w) (b : Int) : quot w b = w / b := Int.tdiv_eq_ediv_of_nonneg h

theorem rem_of_nonneg {w : Int} (h : 0 ≤ w) (b : Int) : rem w b = w % b := Int.tmod_eq_emod_of_nonneg h

theorem dig_of_nonneg {w : Int} (h : 0 ≤ w) (k : Nat) : dig w k = (w / 10 ^ k % 10).toNat := by
  have hq : 0 ≤ w / 10 ^ k := Int.ediv_nonneg h (by positivity)
  rw [dig, quot_of_nonneg h, rem_of_nonneg hq]

theorem dig_lt_ten (w : Int) (h : 0 ≤ w) (k : Nat) : dig w k < 10 := by
  rw [dig_of_nonneg h]
  omega

theorem Mode.digit_lt_ten (m : Mode) : m.digit < 10 := by
  cases m with
  | unrecognised k => simp only [Mode.digit]; omega
  | _ => decide

/-- The mode of a mode's digit is that mode. -/
theorem Mode.ofDigit_digit (m : Mode) : Mode.ofDigit m.digit = m := by
  cases m with
  | unrecognised k =>
    have : Mode.ofDigit (3 + k.val) = .unrecognised (Fin.ofNat 7 k.val) := by rw [Nat.add_comm]; rfl
    simp [Mode.digit, this]
  | _ => rfl

/-- The digit of a digit's mode is that digit. -/
theorem Mode.digit_ofDigit {d : Nat} (h : d < 10) : (Mode.ofDigit d).digit = d := by
  interval_cases d <;> rfl

/-- No two rows of the opcode map have the same code (R53). -/
theorem opcodeTable_pairwise : opcodeTable.Pairwise fun a b => a.code ≠ b.code := by decide

end Sys2Proof
end

