-- ==== Sys2Proof/Laws/State.lean ====
section
/-! SUPPORT. What each update of the state leaves in each field: one lemma per field per update, all true by `rfl`. -/

namespace Sys2Proof.Machine

variable (s : State)

@[simp] theorem State.setCell_mem (a v : Int) : (s.setCell a v).mem = s.mem.write a.toNat v := rfl
@[simp] theorem State.setCell_pc (a v : Int) : (s.setCell a v).pc = s.pc := rfl
@[simp] theorem State.setCell_rb (a v : Int) : (s.setCell a v).rb = s.rb := rfl
@[simp] theorem State.setCell_len (a v : Int) : (s.setCell a v).len = s.len := rfl
@[simp] theorem State.setCell_status (a v : Int) : (s.setCell a v).status = s.status := rfl
@[simp] theorem State.setCell_fault (a v : Int) : (s.setCell a v).fault = s.fault := rfl
@[simp] theorem State.setCell_env (a v : Int) : (s.setCell a v).env = s.env := rfl

@[simp] theorem State.advance_mem (n : Nat) : (s.advance n).mem = s.mem := rfl
@[simp] theorem State.advance_pc (n : Nat) : (s.advance n).pc = s.pc + n := rfl
@[simp] theorem State.advance_rb (n : Nat) : (s.advance n).rb = s.rb := rfl
@[simp] theorem State.advance_len (n : Nat) : (s.advance n).len = s.len := rfl
@[simp] theorem State.advance_status (n : Nat) : (s.advance n).status = s.status := rfl
@[simp] theorem State.advance_fault (n : Nat) : (s.advance n).fault = s.fault := rfl
@[simp] theorem State.advance_env (n : Nat) : (s.advance n).env = s.env := rfl

@[simp] theorem State.jumpTo_mem (t : Int) : (s.jumpTo t).mem = s.mem := rfl
@[simp] theorem State.jumpTo_pc (t : Int) : (s.jumpTo t).pc = t := rfl
@[simp] theorem State.jumpTo_rb (t : Int) : (s.jumpTo t).rb = s.rb := rfl
@[simp] theorem State.jumpTo_len (t : Int) : (s.jumpTo t).len = s.len := rfl
@[simp] theorem State.jumpTo_status (t : Int) : (s.jumpTo t).status = s.status := rfl
@[simp] theorem State.jumpTo_fault (t : Int) : (s.jumpTo t).fault = s.fault := rfl
@[simp] theorem State.jumpTo_env (t : Int) : (s.jumpTo t).env = s.env := rfl

@[simp] theorem State.setRb_mem (v : Int) : (s.setRb v).mem = s.mem := rfl
@[simp] theorem State.setRb_pc (v : Int) : (s.setRb v).pc = s.pc := rfl
@[simp] theorem State.setRb_rb (v : Int) : (s.setRb v).rb = v := rfl
@[simp] theorem State.setRb_len (v : Int) : (s.setRb v).len = s.len := rfl
@[simp] theorem State.setRb_status (v : Int) : (s.setRb v).status = s.status := rfl
@[simp] theorem State.setRb_fault (v : Int) : (s.setRb v).fault = s.fault := rfl
@[simp] theorem State.setRb_env (v : Int) : (s.setRb v).env = s.env := rfl

@[simp] theorem State.setStatus_mem (x : Status) : (s.setStatus x).mem = s.mem := rfl
@[simp] theorem State.setStatus_pc (x : Status) : (s.setStatus x).pc = s.pc := rfl
@[simp] theorem State.setStatus_rb (x : Status) : (s.setStatus x).rb = s.rb := rfl
@[simp] theorem State.setStatus_len (x : Status) : (s.setStatus x).len = s.len := rfl
@[simp] theorem State.setStatus_status (x : Status) : (s.setStatus x).status = x := rfl
@[simp] theorem State.setStatus_fault (x : Status) : (s.setStatus x).fault = s.fault := rfl
@[simp] theorem State.setStatus_env (x : Status) : (s.setStatus x).env = s.env := rfl

@[simp] theorem State.raise_mem (r : FaultRecord) : (s.raise r).mem = s.mem := rfl
@[simp] theorem State.raise_pc (r : FaultRecord) : (s.raise r).pc = s.pc := rfl
@[simp] theorem State.raise_rb (r : FaultRecord) : (s.raise r).rb = s.rb := rfl
@[simp] theorem State.raise_len (r : FaultRecord) : (s.raise r).len = s.len := rfl
@[simp] theorem State.raise_status (r : FaultRecord) : (s.raise r).status = .faulted := rfl
@[simp] theorem State.raise_fault (r : FaultRecord) : (s.raise r).fault = some r := rfl
@[simp] theorem State.raise_env (r : FaultRecord) : (s.raise r).env = s.env := rfl

@[simp] theorem State.pulled_mem : s.pulled.mem = s.mem := rfl
@[simp] theorem State.pulled_pc : s.pulled.pc = s.pc := rfl
@[simp] theorem State.pulled_rb : s.pulled.rb = s.rb := rfl
@[simp] theorem State.pulled_len : s.pulled.len = s.len := rfl
@[simp] theorem State.pulled_status : s.pulled.status = s.status := rfl
@[simp] theorem State.pulled_fault : s.pulled.fault = s.fault := rfl
@[simp] theorem State.pulled_env : s.pulled.env = s.env.pulled := rfl

@[simp] theorem State.pushed_mem (v : Int) : (s.pushed v).mem = s.mem := rfl
@[simp] theorem State.pushed_pc (v : Int) : (s.pushed v).pc = s.pc := rfl
@[simp] theorem State.pushed_rb (v : Int) : (s.pushed v).rb = s.rb := rfl
@[simp] theorem State.pushed_len (v : Int) : (s.pushed v).len = s.len := rfl
@[simp] theorem State.pushed_status (v : Int) : (s.pushed v).status = s.status := rfl
@[simp] theorem State.pushed_fault (v : Int) : (s.pushed v).fault = s.fault := rfl
@[simp] theorem State.pushed_env (v : Int) : (s.pushed v).env = s.env.pushed v := rfl

end Sys2Proof.Machine
end

