-- ==== Sys2Proof/Laws/Operands.lean ====
section
/-! SUPPORT. The parameters of this hardware as numbers, checked arithmetic, and what the phases A and B can answer: each
operation's cases, to be cited in place of unfolding it. -/

namespace Sys2Proof.Machine

/-! ### The parameters -/

@[simp] theorem hardware_intMax : Config.hardware.intMax = 9223372036854775807 := by decide
@[simp] theorem hardware_intMin : Config.hardware.intMin = -9223372036854775808 := by decide
@[simp] theorem hardware_maxImageLen : Config.hardware.maxImageLen = 9223372036854775804 := by decide
@[simp] theorem hardware_relbaseEn : Config.hardware.relbaseEn = true := rfl

/-! ### Checked arithmetic (R6) -/

theorem checked_eq_some {p : Params} {r v : Int} : checked p r = some v ↔ p.InRange r ∧ r = v := by
  unfold checked
  split
  · rename_i h
    exact ⟨fun e => ⟨h, by simpa using e⟩, fun e => by rw [e.2]⟩
  · rename_i h
    exact ⟨fun e => by simp at e, fun e => absurd e.1 h⟩

theorem checked_eq_none {p : Params} {r : Int} : checked p r = none ↔ ¬ p.InRange r := by
  unfold checked
  split <;> simp_all

theorem addChk_eq_some {p : Params} {a b v : Int} : addChk p a b = some v ↔ p.InRange (a + b) ∧ a + b = v :=
  checked_eq_some

theorem addChk_eq_none {p : Params} {a b : Int} : addChk p a b = none ↔ ¬ p.InRange (a + b) := checked_eq_none

theorem mulChk_eq_some {p : Params} {a b v : Int} : mulChk p a b = some v ↔ p.InRange (a * b) ∧ a * b = v :=
  checked_eq_some

theorem mulChk_eq_none {p : Params} {a b : Int} : mulChk p a b = none ↔ ¬ p.InRange (a * b) := checked_eq_none

/-! ### Phase A and phase B for one parameter -/

/-- All that phase A can give for a parameter: the address its mode makes (R75 to R77). -/
theorem resolve_ok {p : Params} {s : State} {role : Role} {i : Nat} {m : Mode} {ea : Int}
    (h : resolve p s role i m = .ok ea) :
    (m = .position ∧ ea = s.param i) ∨ (m = .immediate ∧ role = .src ∧ ea = s.pc + i) ∨
      (m = .relative ∧ p.relbaseEn = true ∧ p.InRange (s.param i + s.rb) ∧ ea = s.param i + s.rb) := by
  cases m with
  | position => simp_all [resolve]
  | immediate => cases role <;> simp_all [resolve]
  | relative =>
    simp only [resolve] at h
    split at h
    · split at h
      · rename_i hc
        obtain ⟨hr, he⟩ := addChk_eq_some.mp hc
        cases h
        exact .inr (.inr ⟨rfl, ‹_›, hr, he.symm⟩)
      · cases h
    · cases h
  | unrecognised k => simp [resolve] at h

theorem getSource_ok {s : State} {i : Nat} {ea v : Int} : getSource s i ea = .ok v ↔ 0 ≤ ea ∧ s.cell ea = v := by
  unfold getSource
  split
  · simp; omega
  · simp; omega

theorem checkDest_ok {s : State} {i : Nat} {ea d : Int} : checkDest s i ea = .ok d ↔ 0 ≤ ea ∧ ea = d := by
  unfold checkDest
  split
  · simp; omega
  · simp; omega

/-! ### Phases A and B of a format -/

theorem operandsF3_ok {p : Params} {s : State} {m1 m2 m3 : Mode} {o : OperandsF3}
    (h : operandsF3 p s m1 m2 m3 = .ok o) :
    ∃ a1 a2, resolve p s .src 1 m1 = .ok a1 ∧ resolve p s .src 2 m2 = .ok a2 ∧ resolve p s .dst 3 m3 = .ok o.dest ∧
      0 ≤ a1 ∧ 0 ≤ a2 ∧ 0 ≤ o.dest ∧ o.v1 = s.cell a1 ∧ o.v2 = s.cell a2 := by
  unfold operandsF3 at h
  cases h1 : resolve p s .src 1 m1 with
  | error r => simp [h1, bind, Except.bind] at h
  | ok a1 =>
  cases h2 : resolve p s .src 2 m2 with
  | error r => simp [h1, h2, bind, Except.bind] at h
  | ok a2 =>
  cases h3 : resolve p s .dst 3 m3 with
  | error r => simp [h1, h2, h3, bind, Except.bind] at h
  | ok a3 =>
  cases g1 : getSource s 1 a1 with
  | error r => simp [h1, h2, h3, g1, bind, Except.bind] at h
  | ok v1 =>
  cases g2 : getSource s 2 a2 with
  | error r => simp [h1, h2, h3, g1, g2, bind, Except.bind] at h
  | ok v2 =>
  cases g3 : checkDest s 3 a3 with
  | error r => simp [h1, h2, h3, g1, g2, g3, bind, Except.bind] at h
  | ok d =>
    simp only [h1, h2, h3, g1, g2, g3, bind, Except.bind, pure, Except.pure, Except.ok.injEq] at h
    subst h
    obtain ⟨p1, e1⟩ := getSource_ok.mp g1
    obtain ⟨p2, e2⟩ := getSource_ok.mp g2
    obtain ⟨p3, rfl⟩ := checkDest_ok.mp g3
    exact ⟨a1, a2, rfl, rfl, rfl, p1, p2, p3, e1.symm, e2.symm⟩

theorem operandsF2_ok {p : Params} {s : State} {m1 m2 : Mode} {o : OperandsF2}
    (h : operandsF2 p s m1 m2 = .ok o) :
    ∃ a1 a2, resolve p s .src 1 m1 = .ok a1 ∧ resolve p s .src 2 m2 = .ok a2 ∧
      0 ≤ a1 ∧ 0 ≤ a2 ∧ o.v1 = s.cell a1 ∧ o.v2 = s.cell a2 := by
  unfold operandsF2 at h
  cases h1 : resolve p s .src 1 m1 with
  | error r => simp [h1, bind, Except.bind] at h
  | ok a1 =>
  cases h2 : resolve p s .src 2 m2 with
  | error r => simp [h1, h2, bind, Except.bind] at h
  | ok a2 =>
  cases g1 : getSource s 1 a1 with
  | error r => simp [h1, h2, g1, bind, Except.bind] at h
  | ok v1 =>
  cases g2 : getSource s 2 a2 with
  | error r => simp [h1, h2, g1, g2, bind, Except.bind] at h
  | ok v2 =>
    simp only [h1, h2, g1, g2, bind, Except.bind, pure, Except.pure, Except.ok.injEq] at h
    subst h
    obtain ⟨p1, e1⟩ := getSource_ok.mp g1
    obtain ⟨p2, e2⟩ := getSource_ok.mp g2
    exact ⟨a1, a2, rfl, rfl, p1, p2, e1.symm, e2.symm⟩

theorem operandF1S_ok {p : Params} {s : State} {m1 : Mode} {v : Int} (h : operandF1S p s m1 = .ok v) :
    ∃ a1, resolve p s .src 1 m1 = .ok a1 ∧ 0 ≤ a1 ∧ v = s.cell a1 := by
  unfold operandF1S at h
  cases h1 : resolve p s .src 1 m1 with
  | error r => simp [h1, bind, Except.bind] at h
  | ok a1 =>
    simp only [h1, bind, Except.bind] at h
    obtain ⟨p1, e1⟩ := getSource_ok.mp h
    exact ⟨a1, rfl, p1, e1.symm⟩

theorem operandF1D_ok {p : Params} {s : State} {m1 : Mode} {d : Int} (h : operandF1D p s m1 = .ok d) :
    resolve p s .dst 1 m1 = .ok d ∧ 0 ≤ d := by
  unfold operandF1D at h
  cases h1 : resolve p s .dst 1 m1 with
  | error r => simp [h1, bind, Except.bind] at h
  | ok a1 =>
    simp only [h1, bind, Except.bind] at h
    obtain ⟨p1, rfl⟩ := checkDest_ok.mp h
    exact ⟨rfl, p1⟩

/-! ### The phases and the table of the modes agree -/

theorem resolve_src_of_effectiveAddress {p : Params} {s : State} {i : Nat} {m : Mode} {ea : Int}
    (h : effectiveAddress p s i m = some ea) : resolve p s .src i m = .ok ea ∧ 0 ≤ ea := by
  cases m with
  | position => simp_all [effectiveAddress, resolve]; omega
  | immediate => simp_all [effectiveAddress, resolve]; omega
  | relative =>
    simp only [effectiveAddress] at h
    split at h
    · rename_i hc
      obtain ⟨hp, hr, hn⟩ := hc
      cases h
      simp [resolve, hp, addChk_eq_some.mpr ⟨hr, rfl⟩, hn]
    · cases h
  | unrecognised k => simp [effectiveAddress] at h

theorem resolve_dst_of_destAddress {p : Params} {s : State} {i : Nat} {m : Mode} {ea : Int}
    (h : destAddress p s i m = some ea) : resolve p s .dst i m = .ok ea ∧ 0 ≤ ea := by
  unfold destAddress at h
  split at h
  · cases h
  · have := resolve_src_of_effectiveAddress h
    cases m <;> simp_all [resolve]

/-! ### The phases and the table of the faults agree

`resolveFault`, `accessFault` and `operandFault` are written from the table of R135, the phases from R74; each phase
answers the fault the table gives, and the value of the table of the modes where the table gives none. -/

theorem accessFault_eq_none {s : State} {i : Nat} {m : Mode} :
    accessFault s i m = none ↔ 0 ≤ addressFormula s i m := by
  unfold accessFault
  split
  · simp; omega
  · simp; omega

theorem resolve_eq (p : Params) (s : State) (role : Role) (i : Nat) (m : Mode) :
    resolve p s role i m =
      match resolveFault p s role i m with
      | some r => .error r
      | none => .ok (addressFormula s i m) := by
  cases m with
  | position => rfl
  | immediate => cases role <;> rfl
  | relative =>
    simp only [resolve, resolveFault, addressFormula]
    cases hp : p.relbaseEn with
    | false => simp
    | true =>
      simp only [if_true, Bool.true_eq_false, if_false]
      by_cases h : p.InRange (s.param i + s.rb)
      · rw [addChk_eq_some.mpr ⟨h, rfl⟩, if_pos h]
      · rw [addChk_eq_none.mpr h, if_neg h]
  | unrecognised k => rfl

theorem getSource_eq (s : State) (i : Nat) (m : Mode) :
    getSource s i (addressFormula s i m) =
      match accessFault s i m with
      | some r => .error r
      | none => .ok (s.cell (addressFormula s i m)) := by
  unfold getSource accessFault
  split <;> rfl

theorem checkDest_eq (s : State) (i : Nat) (m : Mode) :
    checkDest s i (addressFormula s i m) =
      match accessFault s i m with
      | some r => .error r
      | none => .ok (addressFormula s i m) := by
  unfold checkDest accessFault
  split <;> rfl

theorem operandsF3_eq (p : Params) (s : State) (m1 m2 m3 : Mode) :
    operandsF3 p s m1 m2 m3 =
      match operandFault p s [(.src, m1), (.src, m2), (.dst, m3)] with
      | some r => .error r
      | none => .ok ⟨s.cell (addressFormula s 1 m1), s.cell (addressFormula s 2 m2), addressFormula s 3 m3⟩ := by
  simp only [operandsF3, operandFault, resolve_eq, List.zipIdx, List.findSome?]
  cases resolveFault p s .src 1 m1 <;> cases resolveFault p s .src 2 m2 <;> cases resolveFault p s .dst 3 m3 <;>
    simp only [bind, Except.bind, getSource_eq, checkDest_eq, pure, Except.pure, Option.or] <;>
    cases accessFault s 1 m1 <;> cases accessFault s 2 m2 <;> cases accessFault s 3 m3 <;> rfl

theorem operandsF2_eq (p : Params) (s : State) (m1 m2 : Mode) :
    operandsF2 p s m1 m2 =
      match operandFault p s [(.src, m1), (.src, m2)] with
      | some r => .error r
      | none => .ok ⟨s.cell (addressFormula s 1 m1), s.cell (addressFormula s 2 m2)⟩ := by
  simp only [operandsF2, operandFault, resolve_eq, List.zipIdx, List.findSome?]
  cases resolveFault p s .src 1 m1 <;> cases resolveFault p s .src 2 m2 <;>
    simp only [bind, Except.bind, getSource_eq, pure, Except.pure, Option.or] <;>
    cases accessFault s 1 m1 <;> cases accessFault s 2 m2 <;> rfl

theorem operandF1S_eq (p : Params) (s : State) (m1 : Mode) :
    operandF1S p s m1 =
      match operandFault p s [(.src, m1)] with
      | some r => .error r
      | none => .ok (s.cell (addressFormula s 1 m1)) := by
  simp only [operandF1S, operandFault, resolve_eq, List.zipIdx, List.findSome?]
  cases resolveFault p s .src 1 m1 <;> simp only [bind, Except.bind, getSource_eq, Option.or] <;>
    cases accessFault s 1 m1 <;> rfl

theorem operandF1D_eq (p : Params) (s : State) (m1 : Mode) :
    operandF1D p s m1 =
      match operandFault p s [(.dst, m1)] with
      | some r => .error r
      | none => .ok (addressFormula s 1 m1) := by
  simp only [operandF1D, operandFault, resolve_eq, List.zipIdx, List.findSome?]
  cases resolveFault p s .dst 1 m1 <;> simp only [bind, Except.bind, checkDest_eq, Option.or] <;>
    cases accessFault s 1 m1 <;> rfl

/-- A source is readable exactly when neither table of faults has an entry for it. -/
theorem sourceValue_eq_some {p : Params} {s : State} {i : Nat} {m : Mode} {v : Int} :
    sourceValue p s i m = some v ↔
      resolveFault p s .src i m = none ∧ accessFault s i m = none ∧ s.cell (addressFormula s i m) = v := by
  rw [accessFault_eq_none]
  unfold sourceValue
  cases m with
  | position => simp [effectiveAddress, resolveFault, addressFormula]
  | immediate => simp [effectiveAddress, resolveFault, addressFormula]
  | relative =>
    simp only [effectiveAddress, resolveFault, addressFormula]
    cases hp : p.relbaseEn
    · simp
    · simp only [true_and, Bool.true_eq_false, if_false]
      split <;> split <;> simp <;> tauto
  | unrecognised k => simp [effectiveAddress, resolveFault]

/-- A destination is writable exactly when neither table of faults has an entry for it. -/
theorem destAddress_eq_some {p : Params} {s : State} {i : Nat} {m : Mode} {d : Int} :
    destAddress p s i m = some d ↔
      resolveFault p s .dst i m = none ∧ accessFault s i m = none ∧ addressFormula s i m = d := by
  rw [accessFault_eq_none]
  unfold destAddress
  cases m with
  | position => simp [effectiveAddress, resolveFault, addressFormula]
  | immediate => simp [resolveFault]
  | relative =>
    simp only [effectiveAddress, resolveFault, addressFormula]
    cases hp : p.relbaseEn
    · simp
    · simp only [true_and, Bool.true_eq_false, if_false]
      split <;> split <;> simp <;> tauto
  | unrecognised k => simp [effectiveAddress, resolveFault]

end Sys2Proof.Machine
end

