-- ==== Sys2Proof/Laws/Step.lean ====
section
/-! SUPPORT. What each shape of instruction, `exec` and `step` can answer: one lemma each, to be cited in place of
unfolding them. -/

namespace Sys2Proof.Machine

/-! ### The shapes -/

/-- An instruction takes the fault of its operands, or goes on with them. -/
theorem withOperands_cases {α : Type} (s : State) (ops : Except FaultRecord α) (k : α → Answer) :
    (∃ r, ops = .error r ∧ withOperands s ops k = .next (s.raise r)) ∨
      ∃ o, ops = .ok o ∧ withOperands s ops k = k o := by
  cases ops with
  | error r => exact .inl ⟨r, rfl, rfl⟩
  | ok o => exact .inr ⟨o, rfl, rfl⟩

/-- All that an F3 instruction can answer: a fault, or the result stored and `pc + 4`. -/
theorem binaryToMemory_cases (p : Params) (f : Int → Int → Option Int) (m1 m2 m3 : Mode) (s : State) :
    (∃ r, binaryToMemory p f m1 m2 m3 s = .next (s.raise r)) ∨
      ∃ o r, operandsF3 p s m1 m2 m3 = .ok o ∧ f o.v1 o.v2 = some r ∧
        binaryToMemory p f m1 m2 m3 s = .next ((s.setCell o.dest r).advance 4) := by
  unfold binaryToMemory
  rcases withOperands_cases s (operandsF3 p s m1 m2 m3) (fun o => storeResult s o.dest (f o.v1 o.v2)) with
    ⟨r, -, hr⟩ | ⟨o, ho, hr⟩
  · exact .inl ⟨r, hr⟩
  · cases hf : f o.v1 o.v2 with
    | none => exact .inl ⟨s.operateOverflowRecord, by rw [hr, hf]; rfl⟩
    | some v => exact .inr ⟨o, v, ho, hf, by rw [hr, hf]; rfl⟩

/-- All that a jump can answer: a fault, the target, or `pc + 3`. -/
theorem jumpWhen_cases (p : Params) (taken : Int → Bool) (m1 m2 : Mode) (s : State) :
    (∃ r, jumpWhen p taken m1 m2 s = .next (s.raise r)) ∨
      ∃ o, operandsF2 p s m1 m2 = .ok o ∧
        jumpWhen p taken m1 m2 s = .next (if taken o.v1 then s.jumpTo o.v2 else s.advance 3) := by
  rcases withOperands_cases s (operandsF2 p s m1 m2)
    (fun o => .next (if taken o.v1 then s.jumpTo o.v2 else s.advance 3)) with ⟨r, -, hr⟩ | ⟨o, ho, hr⟩
  · exact .inl ⟨r, hr⟩
  · exact .inr ⟨o, ho, hr⟩

/-- All that INPUT can answer: a fault, a refused answer of the environment, blocked, or the value stored. -/
theorem inputWith_cases (p : Params) (m1 : Mode) (s : State) :
    (∃ r, inputWith p m1 s = .next (s.raise r)) ∨
      ∃ d, operandF1D p s m1 = .ok d ∧
        ((s.env.offersOutOfRange p = true ∧ inputWith p m1 s = .refused .inputOutOfRange) ∨
          (s.env.offersOutOfRange p = false ∧
            inputWith p m1 s = .next (storeInput s.pulled d (pullAnswer p s.env)))) := by
  unfold inputWith
  rcases withOperands_cases s (operandF1D p s m1) (fun dest =>
    if s.env.offersOutOfRange p then .refused .inputOutOfRange
    else .next (storeInput s.pulled dest (pullAnswer p s.env))) with ⟨r, -, hr⟩ | ⟨d, hd, hr⟩
  · exact .inl ⟨r, hr⟩
  · refine .inr ⟨d, hd, ?_⟩
    rw [hr]
    cases s.env.offersOutOfRange p <;> simp

/-- All that OUTPUT can answer: a fault, or the value pushed. -/
theorem outputWith_cases (p : Params) (m1 : Mode) (s : State) :
    (∃ r, outputWith p m1 s = .next (s.raise r)) ∨
      ∃ v, operandF1S p s m1 = .ok v ∧
        outputWith p m1 s = .next (finishOutput (s.pushed v) (stopAnswer s.env)) := by
  rcases withOperands_cases s (operandF1S p s m1)
    (fun v => .next (finishOutput (s.pushed v) (stopAnswer s.env))) with ⟨r, -, hr⟩ | ⟨v, hv, hr⟩
  · exact .inl ⟨r, hr⟩
  · exact .inr ⟨v, hv, hr⟩

/-- All that ADJUST-BASE can answer: a fault, or the sum in `rb`. -/
theorem adjustBaseWith_cases (p : Params) (m1 : Mode) (s : State) :
    (∃ r, adjustBaseWith p m1 s = .next (s.raise r)) ∨
      ∃ v, p.relbaseEn = true ∧ operandF1S p s m1 = .ok v ∧ p.InRange (s.rb + v) ∧
        adjustBaseWith p m1 s = .next ((s.setRb (s.rb + v)).advance 2) := by
  unfold adjustBaseWith
  cases hp : p.relbaseEn with
  | false => exact .inl ⟨s.unknownOpcodeRecord, by simp⟩
  | true =>
    simp only [if_true]
    rcases withOperands_cases s (operandF1S p s m1) (fun v => adjustRb s (addChk p s.rb v)) with
      ⟨r, -, hr⟩ | ⟨v, hv, hr⟩
    · exact .inl ⟨r, hr⟩
    · cases hc : addChk p s.rb v with
      | none => exact .inl ⟨s.operateOverflowRecord, by rw [hr, hc]; rfl⟩
      | some x =>
        obtain ⟨hin, rfl⟩ := addChk_eq_some.mp hc
        exact .inr ⟨v, by simp, hv, hin, by rw [hr, hc]; rfl⟩

/-! ### The environment's answers -/

/-- An answer the machine accepts is a value: a scripted one is checked, and a free one has the width of a cell. -/
theorem pullAnswer_inRange {p : Params} {e : Env} {v : Int} (ho : e.offersOutOfRange p = false)
    (h : pullAnswer p e = some v) : p.InRange v := by
  obtain ⟨pulls, stops, drawn, outputs⟩ := e
  cases pulls with
  | cons a rest =>
    cases a with
    | none => simp [pullAnswer] at h
    | some x =>
      simp only [pullAnswer, Option.some.injEq] at h
      subst h
      simpa [Env.offersOutOfRange] using ho
  | nil =>
    simp only [pullAnswer, Option.map_eq_some_iff] at h
    obtain ⟨b, -, rfl⟩ := h
    obtain ⟨x, r⟩ := p
    cases x
    · have h1 := BitVec.toInt_lt (x := b)
      have h2 := BitVec.le_toInt (x := b)
      simp only [Params.InRange, Params.intMin, Params.intMax, XLen.bits] at *
      omega
    · have h1 := BitVec.toInt_lt (x := b)
      have h2 := BitVec.le_toInt (x := b)
      simp only [Params.InRange, Params.intMin, Params.intMax, XLen.bits] at *
      omega

/-- The environment offers a value outside the cell range exactly when its answer is one. -/
theorem offersOutOfRange_iff {p : Params} {e : Env} :
    e.offersOutOfRange p = true ↔ ∃ v, pullAnswer p e = some v ∧ ¬ p.InRange v := by
  constructor
  · intro h
    obtain ⟨pulls, stops, drawn, outputs⟩ := e
    rcases pulls with _ | ⟨_ | v, rest⟩
    · simp [Env.offersOutOfRange] at h
    · simp [Env.offersOutOfRange] at h
    · exact ⟨v, rfl, by simpa only [Env.offersOutOfRange, Bool.not_eq_true', decide_eq_false_iff_not] using h⟩
  · rintro ⟨v, hv, hn⟩
    by_contra h
    exact hn (pullAnswer_inRange (by simpa using h) hv)

/-! ### The parameters of the core -/

/-- This hardware's dispatch is the dispatch with its parameters. -/
theorem exec_eq_execWith (i : Instr) (s : State) : exec i s = execWith Config.hardware i s := by
  cases i <;> rfl

/-- This hardware's step is the step with its parameters. -/
theorem step_eq_stepWith (s : State) : step s = stepWith Config.hardware s := by
  have h : exec = execWith Config.hardware := by
    funext i s
    exact exec_eq_execWith i s
  rw [step, stepWith, h]

/-! ### The cycle -/

/-- All that a cycle can answer: a fault of steps 1 and 2, or what the decoded instruction answers. -/
theorem cycleWith_cases (p : Params) (execute : Instr → State → Answer) (s : State) :
    (∃ r, cycleWith p execute s = .next (s.raise r)) ∨
      ∃ i, s.pcOutOfRange = false ∧ decode p s.word = .ok i ∧ cycleWith p execute s = execute i s := by
  unfold cycleWith
  cases hp : s.pcOutOfRange with
  | true => exact .inl ⟨s.pcRangeRecord, by simp⟩
  | false =>
    cases hd : decode p s.word with
    | ok i => exact .inr ⟨i, rfl, rfl, by simp⟩
    | error x =>
      cases x
      · exact .inl ⟨s.unknownOpcodeRecord, by simp⟩
      · exact .inl ⟨s.highDigitsRecord, by simp⟩

/-- A `Running` core executes a cycle. -/
theorem tickWith_running (p : Params) (execute : Instr → State → Answer) {s : State} (h : s.status = .running) :
    tickWith p execute s = cycleWith p execute s := by
  unfold tickWith
  rw [h]

/-- A core that is not `Running` has no next state but itself. -/
theorem tickWith_stopped {p : Params} {execute : Instr → State → Answer} {s t : State} (h : s.status ≠ .running)
    (ht : tickWith p execute s = .next t) : t = s := by
  unfold tickWith at ht
  cases hs : s.status with
  | running => exact absurd hs h
  | faulted => simp [hs] at ht
  | haltedNormally => simpa [hs, eq_comm] using ht
  | blockedOnInput => simpa [hs, eq_comm] using ht
  | outputRequestedStop => simpa [hs, eq_comm] using ht

end Sys2Proof.Machine
end

