-- ==== Sys2Proof/Laws/Exec.lean ====
section
/-! SUPPORT. What an instruction can answer, said once for all ten: the inversion of `execWith`, and so of `exec`
(`exec_eq_execWith`). Every rule over all instructions starts from it. -/

namespace Sys2Proof.Machine

/-- The next states of an F3 instruction: its operands, and the result of its operation. -/
def StoresResult (p : Params) (i : Instr) (s t : State) : Prop :=
  ∃ m1 m2 m3 o v, operandsF3 p s m1 m2 m3 = .ok o ∧ t = (s.setCell o.dest v).advance 4 ∧
    (i = .add m1 m2 m3 ∧ addChk p o.v1 o.v2 = some v ∨ i = .mul m1 m2 m3 ∧ mulChk p o.v1 o.v2 = some v ∨
      i = .lessThan m1 m2 m3 ∧ lessThanResult o.v1 o.v2 = v ∨ i = .equals m1 m2 m3 ∧ equalsResult o.v1 o.v2 = v)

/-- The next states of a jump. -/
def Jumps (p : Params) (i : Instr) (s t : State) : Prop :=
  ∃ m1 m2 o, (i = .jumpIfTrue m1 m2 ∨ i = .jumpIfFalse m1 m2) ∧ operandsF2 p s m1 m2 = .ok o ∧
    (t = s.jumpTo o.v2 ∨ t = s.advance 3)

/-- The next states of INPUT. -/
def Inputs (p : Params) (i : Instr) (s t : State) : Prop :=
  ∃ m d, i = .input m ∧ operandF1D p s m = .ok d ∧ s.env.offersOutOfRange p = false ∧
    t = storeInput s.pulled d (pullAnswer p s.env)

/-- The next states of OUTPUT. -/
def Outputs (p : Params) (i : Instr) (s t : State) : Prop :=
  ∃ m v, i = .output m ∧ operandF1S p s m = .ok v ∧ t = finishOutput (s.pushed v) (stopAnswer s.env)

/-- The next states of ADJUST-BASE. -/
def Adjusts (p : Params) (i : Instr) (s t : State) : Prop :=
  ∃ m v, i = .adjustBase m ∧ p.relbaseEn = true ∧ operandF1S p s m = .ok v ∧ p.InRange (s.rb + v) ∧
    t = (s.setRb (s.rb + v)).advance 2

/-- All the next states an instruction can answer. -/
theorem execWith_cases (p : Params) (i : Instr) (s t : State) (h : execWith p i s = .next t) :
    (∃ r, t = s.raise r) ∨ StoresResult p i s t ∨ Jumps p i s t ∨ Inputs p i s t ∨ Outputs p i s t ∨
      Adjusts p i s t ∨ (i = .halt ∧ t = s.setStatus .haltedNormally) := by
  have f3 : ∀ f m1 m2 m3, binaryToMemory p f m1 m2 m3 s = .next t → (∃ r, t = s.raise r) ∨
      ∃ o v, operandsF3 p s m1 m2 m3 = .ok o ∧ f o.v1 o.v2 = some v ∧ t = (s.setCell o.dest v).advance 4 := by
    intro f m1 m2 m3 h
    rcases binaryToMemory_cases p f m1 m2 m3 s with ⟨r, hr⟩ | ⟨o, v, ho, hv, hr⟩
    · rw [hr, Host.Outcome.next.injEq] at h
      exact .inl ⟨r, h.symm⟩
    · rw [hr, Host.Outcome.next.injEq] at h
      exact .inr ⟨o, v, ho, hv, h.symm⟩
  have f2 : ∀ f m1 m2, jumpWhen p f m1 m2 s = .next t → (∃ r, t = s.raise r) ∨
      ∃ o, operandsF2 p s m1 m2 = .ok o ∧ (t = s.jumpTo o.v2 ∨ t = s.advance 3) := by
    intro f m1 m2 h
    rcases jumpWhen_cases p f m1 m2 s with ⟨r, hr⟩ | ⟨o, ho, hr⟩
    · rw [hr, Host.Outcome.next.injEq] at h
      exact .inl ⟨r, h.symm⟩
    · rw [hr, Host.Outcome.next.injEq] at h
      refine .inr ⟨o, ho, ?_⟩
      split at h <;> simp [← h]
  cases i with
  | add m1 m2 m3 =>
    rcases f3 (addChk p) m1 m2 m3 h with hr | ⟨o, v, ho, hv, ht⟩
    · exact .inl hr
    · exact .inr (.inl ⟨m1, m2, m3, o, v, ho, ht, .inl ⟨rfl, hv⟩⟩)
  | mul m1 m2 m3 =>
    rcases f3 (mulChk p) m1 m2 m3 h with hr | ⟨o, v, ho, hv, ht⟩
    · exact .inl hr
    · exact .inr (.inl ⟨m1, m2, m3, o, v, ho, ht, .inr (.inl ⟨rfl, hv⟩)⟩)
  | lessThan m1 m2 m3 =>
    rcases f3 (fun a b => some (lessThanResult a b)) m1 m2 m3 h with hr | ⟨o, v, ho, hv, ht⟩
    · exact .inl hr
    · exact .inr (.inl ⟨m1, m2, m3, o, v, ho, ht, .inr (.inr (.inl ⟨rfl, by simpa using hv⟩))⟩)
  | equals m1 m2 m3 =>
    rcases f3 (fun a b => some (equalsResult a b)) m1 m2 m3 h with hr | ⟨o, v, ho, hv, ht⟩
    · exact .inl hr
    · exact .inr (.inl ⟨m1, m2, m3, o, v, ho, ht, .inr (.inr (.inr ⟨rfl, by simpa using hv⟩))⟩)
  | jumpIfTrue m1 m2 =>
    rcases f2 isNonzero m1 m2 h with hr | ⟨o, ho, ht⟩
    · exact .inl hr
    · exact .inr (.inr (.inl ⟨m1, m2, o, .inl rfl, ho, ht⟩))
  | jumpIfFalse m1 m2 =>
    rcases f2 (fun v => !isNonzero v) m1 m2 h with hr | ⟨o, ho, ht⟩
    · exact .inl hr
    · exact .inr (.inr (.inl ⟨m1, m2, o, .inr rfl, ho, ht⟩))
  | input m =>
    have h' : inputWith p m s = .next t := h
    rcases inputWith_cases p m s with ⟨r, hr⟩ | ⟨d, hd, ⟨-, hr⟩ | ⟨ho, hr⟩⟩
    · rw [hr, Host.Outcome.next.injEq] at h'
      exact .inl ⟨r, h'.symm⟩
    · rw [hr] at h'
      cases h'
    · rw [hr, Host.Outcome.next.injEq] at h'
      exact .inr (.inr (.inr (.inl ⟨m, d, rfl, hd, ho, h'.symm⟩)))
  | output m =>
    have h' : outputWith p m s = .next t := h
    rcases outputWith_cases p m s with ⟨r, hr⟩ | ⟨v, hv, hr⟩
    · rw [hr, Host.Outcome.next.injEq] at h'
      exact .inl ⟨r, h'.symm⟩
    · rw [hr, Host.Outcome.next.injEq] at h'
      exact .inr (.inr (.inr (.inr (.inl ⟨m, v, rfl, hv, h'.symm⟩))))
  | adjustBase m =>
    have h' : adjustBaseWith p m s = .next t := h
    rcases adjustBaseWith_cases p m s with ⟨r, hr⟩ | ⟨v, hp, hv, hi, hr⟩
    · rw [hr, Host.Outcome.next.injEq] at h'
      exact .inl ⟨r, h'.symm⟩
    · rw [hr, Host.Outcome.next.injEq] at h'
      exact .inr (.inr (.inr (.inr (.inr (.inl ⟨m, v, rfl, hp, hv, hi, h'.symm⟩)))))
  | halt =>
    have h' : haltAnswer s = .next t := h
    rw [haltAnswer, Host.Outcome.next.injEq] at h'
    exact .inr (.inr (.inr (.inr (.inr (.inr ⟨rfl, h'.symm⟩)))))

/-- The row a non-negative word selects: the one whose code is its two low digits, when the opcode is known (R59). -/
theorem opcodeRow_cases (p : Params) {w : Int} (h : 0 ≤ w) :
    (knownOpcode p w ∧ ∃ r ∈ opcodeTable, opcodeRow p w = some r ∧ (r.code : Int) = w % 100 ∧
        (p.relbaseEn = true ∨ r.needsRelbase = false)) ∨
      (¬ knownOpcode p w ∧ opcodeRow p w = none) := by
  have hr : rem w 100 = w % 100 := Int.tmod_eq_emod_of_nonneg h
  have h0 : 0 ≤ w % 100 := by omega
  have h1 : w % 100 < 100 := by omega
  simp only [opcodeRow, hr, knownOpcode]
  generalize w % 100 = x at *
  obtain ⟨xl, b⟩ := p
  cases b <;> interval_cases x <;> simp [opcodeTable, List.find?]

end Sys2Proof.Machine
end

