-- ==== Sys2Proof/Laws/Memory.lean ====
section
/-! SUPPORT. The memory operations: what a write changes (spec/20_memory.md R33), that every operation keeps the
canonical form and the range of addresses and values, and what a loaded image holds. -/

namespace Sys2Proof.Machine

/-! ### What a read finds -/

theorem Memory.read_erase_ne (m : Memory) {a b : Nat} (h : b ≠ a) : Memory.read (m.erase a) b = Memory.read m b := by
  induction m with
  | nil => rfl
  | cons e rest ih =>
    obtain ⟨k, x⟩ := e
    by_cases hk : k = a
    · subst hk
      simpa [Memory.erase, Memory.read, h] using ih
    · by_cases hb : b = k
      · simp [Memory.erase, Memory.read, hk, hb]
      · simpa [Memory.erase, Memory.read, hk, hb] using ih

theorem Memory.read_insert_ne (m : Memory) {a b : Nat} (v : Int) (h : b ≠ a) :
    Memory.read (Memory.insert a v m) b = Memory.read m b := by
  induction m with
  | nil => simp [Memory.insert, Memory.read, h]
  | cons e rest ih =>
    obtain ⟨k, x⟩ := e
    by_cases hk : a < k
    · simp [Memory.insert, Memory.read, hk, h]
    · simp [Memory.insert, Memory.read, hk, ih]

theorem Memory.read_unlisted (m : Memory) {a : Nat} (h : ∀ e ∈ m, e.1 ≠ a) : Memory.read m a = 0 := by
  induction m with
  | nil => rfl
  | cons e rest ih =>
    obtain ⟨k, x⟩ := e
    have hk : a ≠ k := fun hak => h (k, x) (by simp) hak.symm
    simpa [Memory.read, hk] using ih fun e he => h e (by simp [he])

theorem Memory.erase_unlisted (m : Memory) (a : Nat) : ∀ e ∈ m.erase a, e.1 ≠ a := by
  simp [Memory.erase]

theorem Memory.read_insert_self (m : Memory) {a : Nat} (v : Int) (h : ∀ e ∈ m, e.1 ≠ a) :
    Memory.read (Memory.insert a v m) a = v := by
  induction m with
  | nil => simp [Memory.insert, Memory.read]
  | cons e rest ih =>
    obtain ⟨k, x⟩ := e
    have hk : a ≠ k := fun hak => h (k, x) (by simp) hak.symm
    by_cases hlt : a < k
    · simp [Memory.insert, Memory.read, hlt]
    · simpa [Memory.insert, Memory.read, hlt, hk] using ih fun e he => h e (by simp [he])

/-! ### The entries of an updated memory -/

theorem Memory.mem_insert {m : Memory} {a : Nat} {v : Int} {e : Nat × Int} (h : e ∈ Memory.insert a v m) :
    e = (a, v) ∨ e ∈ m := by
  induction m with
  | nil => simpa [Memory.insert] using h
  | cons x rest ih =>
    obtain ⟨k, y⟩ := x
    by_cases hlt : a < k
    · simpa [Memory.insert, hlt] using h
    · simp only [Memory.insert, hlt, if_false, List.mem_cons] at h
      rcases h with h | h
      · simp [h]
      · rcases ih h with h | h <;> simp [h]

/-- An entry of a written memory is the one written, which is not 0, or one of the old entries. -/
theorem Memory.mem_write {m : Memory} {a : Nat} {v : Int} {e : Nat × Int} (h : e ∈ m.write a v) :
    (e = (a, v) ∧ v ≠ 0) ∨ e ∈ m := by
  unfold Memory.write at h
  split at h
  · exact .inr (List.mem_filter.mp h).1
  · rename_i hv
    rcases Memory.mem_insert h with h | h
    · exact .inl ⟨h, hv⟩
    · exact .inr (List.mem_filter.mp h).1

/-! ### The canonical form -/

theorem Memory.insert_pairwise {m : Memory} {a : Nat} {v : Int} (hm : m.Pairwise fun x y => x.1 < y.1)
    (h : ∀ e ∈ m, e.1 ≠ a) : (Memory.insert a v m).Pairwise fun x y => x.1 < y.1 := by
  induction m with
  | nil => simp [Memory.insert]
  | cons x rest ih =>
    obtain ⟨k, y⟩ := x
    rw [List.pairwise_cons] at hm
    have hk : k ≠ a := h (k, y) (by simp)
    by_cases hlt : a < k
    · simp only [Memory.insert, hlt, if_true, List.pairwise_cons, List.mem_cons]
      refine ⟨?_, hm⟩
      rintro e (rfl | he)
      · exact hlt
      · exact hlt.trans (hm.1 e he)
    · simp only [Memory.insert, hlt, if_false, List.pairwise_cons]
      refine ⟨fun e he => ?_, ih hm.2 fun e he => h e (by simp [he])⟩
      rcases Memory.mem_insert he with rfl | he
      · show k < a
        omega
      · exact hm.1 e he

/-- Every write keeps the canonical form. -/
theorem Memory.write_wf {m : Memory} (a : Nat) (v : Int) (h : Memory.wf m) : Memory.wf (m.write a v) := by
  refine ⟨?_, fun e he => ?_⟩
  · have hf : (m.erase a).Pairwise fun x y => x.1 < y.1 := h.1.filter _
    unfold Memory.write
    split
    · exact hf
    · exact Memory.insert_pairwise hf (Memory.erase_unlisted m a)
  · rcases Memory.mem_write he with ⟨rfl, hv⟩ | he
    · exact hv
    · exact h.2 e he

/-- A write of a value to a legal address keeps every cell at a legal address and in range. -/
theorem Memory.write_inRange {p : Params} {m : Memory} {a : Nat} {v : Int} (hm : Memory.inRange p m)
    (ha : (a : Int) ≤ p.intMax) (hv : p.InRange v) : Memory.inRange p (m.write a v) := by
  intro e he
  rcases Memory.mem_write he with ⟨rfl, -⟩ | he
  · exact ⟨ha, hv⟩
  · exact hm e he

/-- 0 is a value whatever `XLEN` is. -/
theorem Params.zero_inRange (p : Params) : p.InRange 0 := by
  obtain ⟨x, b⟩ := p
  cases x <;> simp [Params.InRange, Params.intMin, Params.intMax, XLen.bits]

/-- A read of a memory in range is a value: a listed one, or 0. -/
theorem Memory.read_inRange {p : Params} {m : Memory} (hm : Memory.inRange p m) (a : Nat) :
    p.InRange (Memory.read m a) := by
  induction m with
  | nil => exact Params.zero_inRange p
  | cons e rest ih =>
    obtain ⟨k, x⟩ := e
    unfold Memory.read
    split
    · exact (hm (k, x) (by simp)).2
    · exact ih fun e he => hm e (by simp [he])

/-! ### A loaded image -/

theorem Memory.ofImage_entry {image : List Int} {a : Nat} {e : Nat × Int} (h : e ∈ Memory.ofImage a image) :
    a ≤ e.1 ∧ e.1 < a + image.length ∧ e.2 ≠ 0 ∧ e.2 ∈ image := by
  induction image generalizing a with
  | nil => simp [Memory.ofImage] at h
  | cons v rest ih =>
    unfold Memory.ofImage at h
    split at h
    · obtain ⟨h1, h2, h3, h4⟩ := ih h
      exact ⟨by omega, by simp only [List.length_cons]; omega, h3, by simp [h4]⟩
    · rename_i hv
      rcases List.mem_cons.mp h with rfl | h
      · exact ⟨le_refl _, by simp, hv, by simp⟩
      · obtain ⟨h1, h2, h3, h4⟩ := ih h
        exact ⟨by omega, by simp only [List.length_cons]; omega, h3, by simp [h4]⟩

/-- A loaded memory is in canonical form. -/
theorem Memory.ofImage_wf (image : List Int) (a : Nat) : Memory.wf (Memory.ofImage a image) := by
  refine ⟨?_, fun e he => (Memory.ofImage_entry he).2.2.1⟩
  induction image generalizing a with
  | nil => simp [Memory.ofImage]
  | cons v rest ih =>
    unfold Memory.ofImage
    split
    · exact ih _
    · refine List.pairwise_cons.mpr ⟨fun e he => ?_, ih _⟩
      have := (Memory.ofImage_entry he).1
      show a < e.1
      omega

/-- The memory of the reset state is in canonical form. -/
theorem State.reset_mem_wf : Memory.wf State.reset.mem := by decide

end Sys2Proof.Machine
end

