-- ==== Sys2Proof/Laws/PerInstr.lean ====
section
/-! SUPPORT. Facts about the instructions as syntax, one lemma per constructor. Family `WordShape`: the canonical word of
an instruction is a non-negative number of at most five digits whose two low digits are the opcode
(spec/30_encoding.md R51, R61). -/

namespace Sys2Proof.Laws.WordShape

/-- The shape of the canonical word. -/
def Statement (i : Instr) : Prop := 0 ≤ encode i ∧ encode i < 100000 ∧ encode i % 100 = i.opcode

theorem of_digits {o a b c : Nat} (ho : o < 100) (ha : a < 10) (hb : b < 10) (hc : c < 10) :
    0 ≤ wordOf o a b c ∧ wordOf o a b c < 100000 ∧ wordOf o a b c % 100 = o := by
  simp only [wordOf]
  omega

theorem add (m1 m2 m3 : Mode) : Statement (.add m1 m2 m3) :=
  of_digits (by decide) m1.digit_lt_ten m2.digit_lt_ten m3.digit_lt_ten

theorem mul (m1 m2 m3 : Mode) : Statement (.mul m1 m2 m3) :=
  of_digits (by decide) m1.digit_lt_ten m2.digit_lt_ten m3.digit_lt_ten

theorem input (m1 : Mode) : Statement (.input m1) :=
  of_digits (by decide) m1.digit_lt_ten (by decide) (by decide)

theorem output (m1 : Mode) : Statement (.output m1) :=
  of_digits (by decide) m1.digit_lt_ten (by decide) (by decide)

theorem jumpIfTrue (m1 m2 : Mode) : Statement (.jumpIfTrue m1 m2) :=
  of_digits (by decide) m1.digit_lt_ten m2.digit_lt_ten (by decide)

theorem jumpIfFalse (m1 m2 : Mode) : Statement (.jumpIfFalse m1 m2) :=
  of_digits (by decide) m1.digit_lt_ten m2.digit_lt_ten (by decide)

theorem lessThan (m1 m2 m3 : Mode) : Statement (.lessThan m1 m2 m3) :=
  of_digits (by decide) m1.digit_lt_ten m2.digit_lt_ten m3.digit_lt_ten

theorem equals (m1 m2 m3 : Mode) : Statement (.equals m1 m2 m3) :=
  of_digits (by decide) m1.digit_lt_ten m2.digit_lt_ten m3.digit_lt_ten

theorem adjustBase (m1 : Mode) : Statement (.adjustBase m1) :=
  of_digits (by decide) m1.digit_lt_ten (by decide) (by decide)

theorem halt : Statement .halt := of_digits (by decide) (by decide) (by decide) (by decide)

end Sys2Proof.Laws.WordShape
end

