-- ==== Sys2Proof/Tests/Slice0.lean ====
section
/-! SUPPORT. The model's own tests. The expected results are the spec's worked vectors (spec/95_test_vectors.md, named by
their ids) or hand calculation from the rule cited; then, for every statement with hypotheses, a concrete state that
meets them. -/

namespace Sys2Proof.Tests

open Sys2Proof Sys2Proof.Machine

abbrev iMax : Int := 9223372036854775807
abbrev iMin : Int := -9223372036854775808

/-- The state right after `load(image)` (R22), with the answers the environment will give. -/
def loaded (image : List Int) (pulls : List (Option Int) := []) (stops : List Bool := []) : State :=
  { State.reset with
    mem := Memory.ofImage 0 image
    len := image.length
    env := { pulls := pulls, stops := stops, drawn := 0, outputs := [] } }

/-- The next state of an outcome. -/
def after (a : Answer) : Option State :=
  match a with
  | .next t => some t
  | .fault _ => none
  | .refused _ => none

/-- The cells from address 0 upward. -/
def cells (n : Nat) (s : State) : List Int := (List.range n).map (Memory.read s.mem)

/-- What a test of one step looks at: the first cells, `pc`, `rb`, `status`. -/
def seen (n : Nat) (a : Answer) : Option (List Int × Int × Int × Status) :=
  (after a).map fun t => (cells n t, t.pc, t.rb, t.status)

/-- The fault record after a step. -/
def faultAfter (a : Answer) : Option FaultRecord := (after a).bind fun t => t.fault

/-! ### WellFormed: an ill-formed term for each check, refused, beside a well-formed one -/

theorem test_wf_accepts : Instr.wf Config.hardware (.add .relative .immediate .relative) = true := by decide
theorem test_wf_refuses_bad_mode : Instr.wf Config.hardware (.output (.unrecognised 0)) = false := by decide
theorem test_wf_refuses_immediate_destination : Instr.wf Config.hardware (.mul .position .position .immediate) = false := by
  decide
theorem test_wf_refuses_relative_without_rb : Instr.wf ⟨.w64, false⟩ (.output .relative) = false := by decide
theorem test_wf_refuses_absent_instruction : Instr.wf ⟨.w64, false⟩ (.adjustBase .immediate) = false := by decide

/-! ### Decoding: words written out from R51 (`CBADE`) and section 2.1 of the vectors -/

theorem test_decode_add : decode Config.hardware 21101 = .ok (.add .immediate .immediate .relative) := by rfl
theorem test_decode_mul : decode Config.hardware 1002 = .ok (.mul .position .immediate .position) := by rfl
theorem test_decode_input : decode Config.hardware 203 = .ok (.input .relative) := by rfl
theorem test_decode_output : decode Config.hardware 1104 = .ok (.output .immediate) := by rfl
theorem test_decode_jumpIfTrue : decode Config.hardware 2105 = .ok (.jumpIfTrue .immediate .relative) := by rfl
theorem test_decode_jumpIfFalse : decode Config.hardware 1006 = .ok (.jumpIfFalse .position .immediate) := by rfl
theorem test_decode_lessThan : decode Config.hardware 20107 = .ok (.lessThan .immediate .position .relative) := by rfl
theorem test_decode_equals : decode Config.hardware 1208 = .ok (.equals .relative .immediate .position) := by rfl
theorem test_decode_adjustBase : decode Config.hardware 209 = .ok (.adjustBase .relative) := by rfl
theorem test_decode_halt : decode Config.hardware 31099 = .ok .halt := by rfl
theorem test_decode_bad_mode : decode Config.hardware 30001 = .ok (.add .position .position (.unrecognised 0)) := by rfl
theorem test_decode_rejects :
    [0, 10, 98, 100, 355, -1, -99, -101, 100055].all
      (fun w => decode Config.hardware w matches .error .unknownOpcode) = true := by decide
theorem test_decode_rejects_high_digits :
    [100001, 100099, 1000002].all (fun w => decode Config.hardware w matches .error .highDigits) = true := by decide
theorem test_decode_without_rb : (decode ⟨.w64, false⟩ 109 matches .error .unknownOpcode) = true := by decide

/-- The host's first question of OUTPUT's row: the table word 4 is OUTPUT, and step runs it first after reset. -/
theorem test_tableWord_output : decodeTableWord 8 4 = some (.output .position) := by rfl
theorem test_tableWord_output_runs : (after (step (State.reset.withFetchWord 8 4))).map (·.pc) = some 2 := by rfl
theorem test_tableWord_negative : decodeTableWord 64 18446744073709551615 = none := by rfl

/-! ### One step of each instruction -/

theorem test_add_1 : seen 5 (step (loaded [1, 0, 0, 0, 99])) = some ([2, 0, 0, 0, 99], 4, 0, .running) := by decide  -- V-ADD-1
theorem test_add_10 :  -- V-ADD-10: three relative parameters
    (after (step { loaded [22201, -10, -9, 5, 99] with rb := 10 })).map (fun t => Memory.read t.mem 15) = some 22191 := by
  decide
theorem test_mul_8 :  -- V-MUL-8: the largest square in Int
    seen 1 (step (loaded [1102, 3037000499, 3037000499, 0, 99])) = some ([9223372030926249001], 4, 0, .running) := by decide
theorem test_mul_2 :  -- V-MUL-2
    seen 5 (step (loaded [1102, -3, 4, 0, 99])) = some ([-12, -3, 4, 0, 99], 4, 0, .running) := by decide
theorem test_input_1 :  -- V-IN-1
    seen 5 (step (loaded [3, 0, 4, 0, 99] [some 7])) = some ([7, 0, 4, 0, 99], 2, 0, .running) := by decide
theorem test_input_2 :  -- V-IN-2
    seen 5 (step (loaded [3, 0, 4, 0, 99] [none])) = some ([3, 0, 4, 0, 99], 0, 0, .blockedOnInput) := by decide
theorem test_output_3 :  -- V-OUT-3
    (after (step { loaded [204, -9, 99] [] [false] with rb := 10 })).map (fun t => (t.env.outputs, t.pc, t.status)) =
      some ([-9], 2, .running) := by decide
theorem test_output_4 :  -- V-OUT-4
    (after (step (loaded [104, 5, 99] [] [true]))).map (fun t => (t.env.outputs, t.pc, t.status)) =
      some ([5], 2, .outputRequestedStop) := by decide
theorem test_jumpIfTrue_3 :  -- V-JT-3
    seen 0 (step (loaded [1105, -1, 4, 99, 104, 7, 99])) = some ([], 4, 0, .running) := by decide
theorem test_jumpIfTrue_8 :  -- V-JT-8: not taken, and the target operand still faults
    faultAfter (step (loaded [105, 0, -5, 99])) =
      some { kind := .addressError, pc := 0, word := some 105, param := some 2, mode := none, address := some (-5),
             reason := none } := by decide
theorem test_jumpIfFalse_3 :  -- V-JF-3
    seen 0 (step (loaded [6, 3, 4, 0, 6, 99, 99])) = some ([], 6, 0, .running) := by decide
theorem test_jumpIfFalse_2 :  -- V-JF-2
    seen 0 (step (loaded [1106, 5, 4, 99, 104, 7, 99])) = some ([], 3, 0, .running) := by decide
theorem test_lessThan_5 :  -- V-LT-5
    seen 6 (step (loaded [1107, iMin, iMax, 5, 99, -1])) = some ([1107, iMin, iMax, 5, 99, 1], 4, 0, .running) := by decide
theorem test_lessThan_2 :  -- V-LT-2: equal operands write 0
    seen 6 (step (loaded [1107, 8, 8, 5, 99, -1])) = some ([1107, 8, 8, 5, 99, 0], 4, 0, .running) := by decide
theorem test_equals_4 :  -- V-EQ-4
    seen 6 (step { loaded [21108, 3, 3, -4, 99, -1] with rb := 9 }) = some ([21108, 3, 3, -4, 99, 1], 4, 9, .running) := by
  decide
theorem test_equals_2 :  -- V-EQ-2
    seen 6 (step (loaded [1108, 7, 8, 5, 99, -1])) = some ([1108, 7, 8, 5, 99, 0], 4, 0, .running) := by decide
theorem test_adjustBase_4 :  -- V-ARB-4: the old rb forms the address
    seen 0 (step { loaded [209, -3, 99, 7] with rb := 6 }) = some ([], 2, 13, .running) := by decide
theorem test_adjustBase_6 :  -- V-ARB-6
    faultAfter (step { loaded [109, -1, 99] with rb := iMin }) =
      some { kind := .overflowError, pc := 0, word := some 109, param := none, mode := none, address := none,
             reason := none } := by decide
theorem test_halt_4 :  -- V-HLT-4
    seen 5 (step { loaded [1, 0, 0, 0, 99] with pc := 4 }) = some ([1, 0, 0, 0, 99], 4, 0, .haltedNormally) := by decide

/-! ### Faults and their order -/

theorem test_priority_6 :  -- V-PRI-6: overflow on parameter 1 before the immediate destination of parameter 3
    faultAfter (step { loaded [12201, iMax, 0, 0, 99] with rb := 1 }) =
      some { kind := .overflowError, pc := 0, word := some 12201, param := some 1, mode := none, address := none,
             reason := none } := by decide
theorem test_priority_2 :  -- V-PRI-2: the negative destination before the sum's overflow
    faultAfter (step (loaded [1101, iMax, 1, -7, 99])) =
      some { kind := .addressError, pc := 0, word := some 1101, param := some 3, mode := none, address := some (-7),
             reason := none } := by decide
theorem test_pc_1 :  -- V-PC-1: the empty image
    faultAfter (step (loaded [])) =
      some { kind := .pcRangeError, pc := 0, word := none, param := none, mode := none, address := none,
             reason := none } := by decide
theorem test_width_32 :  -- V-MUL-12
    faultAfter (stepWith ⟨.w32, true⟩ (loaded [1102, 46341, 46341, 0, 99])) =
      some { kind := .overflowError, pc := 0, word := some 1102, param := none, mode := none, address := none,
             reason := none } := by decide
theorem test_relbase_off :  -- V-ARB-10
    faultAfter (stepWith ⟨.w64, false⟩ (loaded [204, 0, 99])) =
      some { kind := .decodeError, pc := 0, word := some 204, param := some 1, mode := some 2, address := none,
             reason := some .badMode } := by decide

/-! ### Witnesses: every statement's hypotheses are met by a concrete state and operands -/

theorem witness_DecodeOfEncodeIsTheInstruction :
    Instr.available Config.hardware (.adjustBase (.unrecognised 6)) = true ∧
      Instr.available ⟨.w32, false⟩ (.add .relative .relative .immediate) = true := by decide

theorem witness_EncodeOfDecodeKeepsTheUsedDigits :
    decode Config.hardware 7003 = .ok (.input .position) ∧ decode ⟨.w32, false⟩ 99999 = .ok .halt := ⟨rfl, rfl⟩

theorem witness_DecoderReadsTheDecimalDigits :
    ((-1 : Int) < 0) ∧ (¬ knownOpcode Config.hardware 0) ∧ (¬ knownOpcode ⟨.w64, false⟩ 9) ∧
      (knownOpcode Config.hardware 100001) ∧ (knownOpcode Config.hardware 99999) := by decide

/-- A running core at address 4 whose word is HALT. -/
def atHalt : State := { loaded [1, 0, 0, 0, 99] with pc := 4 }

theorem witness_StepRunsTheDecodedInstruction :
    atHalt.status = .running ∧ 0 ≤ atHalt.pc ∧ atHalt.pc < (atHalt.len : Int) ∧
      decode Config.hardware (Memory.read atHalt.mem atHalt.pc.toNat) = .ok .halt :=
  ⟨by decide, by decide, by decide, rfl⟩

theorem witness_PcOutsideTheImageFaults :
    (let s := { loaded [99] with pc := -1 }; s.status = .running ∧ s.pc < 0) ∧
      (let s := { loaded [99] with pc := 1 }; s.status = .running ∧ (s.len : Int) ≤ s.pc) := by decide

theorem witness_UnknownOpcodeFaults :
    (let s := loaded [-99]; s.status = .running ∧ 0 ≤ s.pc ∧ s.pc < (s.len : Int) ∧ s.word < 0) ∧
      (let s := loaded [98]; s.word % 100 ∉ [1, 2, 3, 4, 5, 6, 7, 8, 99] ∧ ¬(s.word % 100 = 9 ∧ true = true)) ∧
      (let s := loaded [109, 10]; s.word % 100 ∉ [1, 2, 3, 4, 5, 6, 7, 8, 99] ∧ ¬(s.word % 100 = 9 ∧ false = true)) := by
  decide

theorem witness_HighDigitsFault :
    let s := loaded [100099]
    s.status = .running ∧ 0 ≤ s.pc ∧ s.pc < (s.len : Int) ∧ 100000 ≤ s.word ∧ knownOpcode Config.hardware s.word := by decide

theorem witness_CycleReportsTheFirstFault :
    (firstFault Config.hardware { loaded [12201, iMax, 0, 0, 99] with rb := 1 }).isSome = true ∧
      firstFault Config.hardware atHalt = none ∧ atHalt.status = .running ∧ ∃ t, stepWith Config.hardware atHalt = .next t :=
  ⟨by decide, by decide, by decide, _, rfl⟩

theorem witness_RunningCoreAlwaysAnswers : State.reset.status = .running := by decide

theorem witness_StoppedCoreExecutesNothing :
    { atHalt with status := .haltedNormally }.status = Status.haltedNormally ∧
      { atHalt with status := .blockedOnInput }.status = Status.blockedOnInput ∧
      { atHalt with status := .outputRequestedStop }.status = Status.outputRequestedStop := by decide

/-- The operands of the F3 statements at the ends of the range: sums and products that just fit and just do not, and a
fault of the operands. -/
theorem witness_AddFollowsItsRule :
    (let s := loaded [1101, iMax, 0, 0, 99]
     sourceValue Config.hardware s 1 .immediate = some iMax ∧ sourceValue Config.hardware s 2 .immediate = some 0 ∧
       destAddress Config.hardware s 3 .position = some 0 ∧ Config.hardware.InRange (iMax + 0)) ∧
    (let s := loaded [1101, iMax, 1, 0, 99]
     sourceValue Config.hardware s 1 .immediate = some iMax ∧ sourceValue Config.hardware s 2 .immediate = some 1 ∧
       destAddress Config.hardware s 3 .position = some 0 ∧ ¬ Config.hardware.InRange (iMax + 1)) ∧
    (operandFault Config.hardware (loaded [1, -1, 0, 0, 99]) [(.src, .position), (.src, .position), (.dst, .position)]).isSome =
      true := by decide

theorem witness_MulFollowsItsRule :
    (let s := loaded [1102, iMin, 1, 0, 99]
     sourceValue Config.hardware s 1 .immediate = some iMin ∧ sourceValue Config.hardware s 2 .immediate = some 1 ∧
       destAddress Config.hardware s 3 .position = some 0 ∧ Config.hardware.InRange (iMin * 1)) ∧
    (let s := loaded [1102, iMin, -1, 0, 99]
     sourceValue Config.hardware s 1 .immediate = some iMin ∧ sourceValue Config.hardware s 2 .immediate = some (-1) ∧
       destAddress Config.hardware s 3 .position = some 0 ∧ ¬ Config.hardware.InRange (iMin * -1)) ∧
    (operandFault Config.hardware (loaded [11102, 1, 2, 3, 99])
      [(.src, .immediate), (.src, .immediate), (.dst, .immediate)]).isSome = true := by decide

theorem witness_InputFollowsItsRule :
    (let s := loaded [3, 0] [none]
     destAddress Config.hardware s 1 .position = some 0 ∧ pullAnswer Config.hardware s.env = none) ∧
    (let s := loaded [3, 0] [some iMin]
     destAddress Config.hardware s 1 .position = some 0 ∧ pullAnswer Config.hardware s.env = some iMin ∧
       Config.hardware.InRange iMin) ∧
    (operandFault Config.hardware (loaded [3, -1, 99]) [(.dst, .position)]).isSome = true := by decide

theorem witness_OutputFollowsItsRule :
    (let s := loaded [104, 5] [] [false]; sourceValue Config.hardware s 1 .immediate = some 5 ∧ stopAnswer s.env = false) ∧
    (let s := loaded [104, 5] [] [true]; sourceValue Config.hardware s 1 .immediate = some 5 ∧ stopAnswer s.env = true) ∧
    (operandFault Config.hardware (loaded [4, -3, 99]) [(.src, .position)]).isSome = true := by decide

theorem witness_JumpIfTrueFollowsItsRule :
    (let s := loaded [1105, -1, -3]
     sourceValue Config.hardware s 1 .immediate = some (-1) ∧ sourceValue Config.hardware s 2 .immediate = some (-3)) ∧
    (let s := loaded [1105, 0, 4]
     sourceValue Config.hardware s 1 .immediate = some 0 ∧ sourceValue Config.hardware s 2 .immediate = some 4) ∧
    (operandFault Config.hardware (loaded [105, 0, -5, 99]) [(.src, .immediate), (.src, .position)]).isSome = true := by decide

theorem witness_JumpIfFalseFollowsItsRule :
    (let s := loaded [1106, 0, 4]
     sourceValue Config.hardware s 1 .immediate = some 0 ∧ sourceValue Config.hardware s 2 .immediate = some 4) ∧
    (let s := loaded [1106, 5, 4]
     sourceValue Config.hardware s 1 .immediate = some 5 ∧ sourceValue Config.hardware s 2 .immediate = some 4) ∧
    (operandFault Config.hardware (loaded [3106, 1, 2, 99]) [(.src, .immediate), (.src, .unrecognised 0)]).isSome = true := by
  decide

theorem witness_LessThanFollowsItsRule :
    (let s := loaded [1107, iMin, iMax, 5]
     sourceValue Config.hardware s 1 .immediate = some iMin ∧ sourceValue Config.hardware s 2 .immediate = some iMax ∧
       destAddress Config.hardware s 3 .position = some 5 ∧ iMin < iMax) ∧
    (let s := loaded [1107, 8, 8, 5]
     sourceValue Config.hardware s 1 .immediate = some 8 ∧ sourceValue Config.hardware s 2 .immediate = some 8 ∧
       destAddress Config.hardware s 3 .position = some 5) ∧
    (operandFault Config.hardware (loaded [11107, 1, 2, 3])
      [(.src, .immediate), (.src, .immediate), (.dst, .immediate)]).isSome = true := by decide

theorem witness_EqualsFollowsItsRule :
    (let s := { loaded [21108, 3, 3, -4] with rb := 9 }
     sourceValue Config.hardware s 1 .immediate = some 3 ∧ sourceValue Config.hardware s 2 .immediate = some 3 ∧
       destAddress Config.hardware s 3 .relative = some 5) ∧
    (let s := loaded [1108, 7, 8, 5]
     sourceValue Config.hardware s 1 .immediate = some 7 ∧ sourceValue Config.hardware s 2 .immediate = some 8 ∧
       destAddress Config.hardware s 3 .position = some 5) ∧
    (operandFault Config.hardware (loaded [1108, 1, 1, -1])
      [(.src, .immediate), (.src, .immediate), (.dst, .position)]).isSome = true := by decide

theorem witness_AdjustBaseFollowsItsRule :
    (let s := { loaded [109, 1] with rb := iMax - 1 }
     sourceValue Config.hardware s 1 .immediate = some 1 ∧ Config.hardware.InRange (s.rb + 1)) ∧
    (let s := { loaded [109, 1] with rb := iMax }
     sourceValue Config.hardware s 1 .immediate = some 1 ∧ ¬ Config.hardware.InRange (s.rb + 1)) ∧
    (operandFault Config.hardware (loaded [9, -1, 99]) [(.src, .position)]).isSome = true := by decide

theorem witness_OutOfRangeInputIsRefused :
    let s := loaded [3, 0] [some (iMax + 1)]
    destAddress Config.hardware s 1 .position = some 0 ∧ pullAnswer Config.hardware s.env = some (iMax + 1) ∧
      ¬ Config.hardware.InRange (iMax + 1) := by decide

/-- The fault statements over a parameter: V-PRI-1 (bad mode on parameter 3), a destination of INPUT and of ADD, mode 2 on
parameter 1, and a negative destination (V-PRI-2's form, in range). -/
theorem witness_BadModeFaults :
    (Instr.add .position .position (.unrecognised 0)).params[2]? = some (.dst, .unrecognised 0) ∧
      ∀ j r m, j < 2 → (Instr.add .position .position (.unrecognised 0)).params[j]? = some (r, m) →
        resolveFault Config.hardware (loaded [30001, -1, 0, 0, 99]) r (j + 1) m = none := by
  refine ⟨by decide, fun j r m hj h => ?_⟩
  match j, hj with
  | 0, _ => cases h; decide
  | 1, _ => cases h; decide

theorem witness_ImmediateDestinationFaults :
    (Instr.input .immediate).params[0]? = some (.dst, .immediate) ∧
      (Instr.add .immediate .immediate .immediate).params[2]? = some (.dst, .immediate) ∧
      ∀ j r m, j < 2 → (Instr.add .immediate .immediate .immediate).params[j]? = some (r, m) →
        resolveFault Config.hardware (loaded [11101, 1, 2, 3, 99]) r (j + 1) m = none := by
  refine ⟨by decide, by decide, fun j r m hj h => ?_⟩
  match j, hj with
  | 0, _ => cases h; decide
  | 1, _ => cases h; decide

theorem witness_RelativeAddressOverflowFaults :
    let s := { loaded [2201, iMax, 0, 0, 99] with rb := 1 }
    (Instr.add .relative .relative .position).params[0]? = some (.src, .relative) ∧
      ¬ Config.hardware.InRange (s.param 1 + s.rb) ∧
      ∀ j r m, j < 0 → (Instr.add .relative .relative .position).params[j]? = some (r, m) →
        resolveFault Config.hardware s r (j + 1) m = none :=
  ⟨by decide, by decide, fun _ _ _ hj _ => absurd hj (by omega)⟩

theorem witness_NegativeAddressFaults :
    let s := loaded [1101, 1, 2, -1, 99]
    (Instr.add .immediate .immediate .position).params[2]? = some (.dst, .position) ∧ addressFormula s 3 .position < 0 ∧
      (∀ j r m, (Instr.add .immediate .immediate .position).params[j]? = some (r, m) →
        resolveFault Config.hardware s r (j + 1) m = none) ∧
      ∀ j r m, j < 2 → (Instr.add .immediate .immediate .position).params[j]? = some (r, m) →
        0 ≤ addressFormula s (j + 1) m := by
  refine ⟨by decide, by decide, fun j r m h => ?_, fun j r m hj h => ?_⟩
  · match j with
    | 0 => cases h; decide
    | 1 => cases h; decide
    | 2 => cases h; decide
    | _ + 3 => cases h
  · match j, hj with
    | 0, _ => cases h; decide
    | 1, _ => cases h; decide

theorem witness_FaultsArePrecise :
    (loaded [355]).status ≠ .faulted ∧ ∃ t, stepWith Config.hardware (loaded [355]) = .next t ∧ t.status = .faulted :=
  ⟨by decide, _, rfl, rfl⟩

theorem witness_FaultRecordsHaveTheFieldsOfTheirKind :
    (loaded [1, -1]).status ≠ .faulted ∧
      ∃ t, stepWith Config.hardware (loaded [1, -1]) = .next t ∧ t.status = .faulted :=
  ⟨by decide, _, rfl, rfl⟩

/-- A core that has faulted. -/
def faultedCore : State := (loaded [355]).raise (loaded [355]).unknownOpcodeRecord

theorem witness_FaultedIsSticky :
    faultedCore.status = .faulted ∧ RunsTo Config.hardware faultedCore faultedCore ∧ admissible Config.hardware [iMin, iMax] :=
  ⟨by decide, .returns (by decide), by decide⟩

theorem witness_FrameOfTheStoringInstructions :
    (∃ t, exec (.add .immediate .immediate .position) (loaded [1101, 5, 3, 0, 99]) = .next t) ∧
      (∃ t, exec (.mul .immediate .immediate .position) (loaded [1102, 5, 3, 0, 99]) = .next t) ∧
      (∃ t, exec (.lessThan .immediate .immediate .position) (loaded [1107, 5, 3, 0, 99]) = .next t) ∧
      (∃ t, exec (.equals .immediate .immediate .immediate) (loaded [11108, 5, 3, 0, 99]) = .next t) ∧
      resolve Config.hardware (loaded [1101, 5, 3, 0, 99]) .dst 3 .position = .ok 0 :=
  ⟨⟨_, rfl⟩, ⟨_, rfl⟩, ⟨_, rfl⟩, ⟨_, rfl⟩, rfl⟩

theorem witness_FrameOfInput :
    (∃ t, exec (.input .position) (loaded [3, 0] [some 7]) = .next t) ∧
      (∃ t, exec (.input .position) (loaded [3, 0] [none]) = .next t) ∧
      ∃ t, exec (.input .position) (loaded [3, -1] [some 7]) = .next t :=
  ⟨⟨_, rfl⟩, ⟨_, rfl⟩, ⟨_, rfl⟩⟩

theorem witness_FrameOfTheInstructionsThatStoreNothing :
    (∃ t, exec (.output .immediate) (loaded [104, 5] [] [true]) = .next t) ∧
      (∃ t, exec (.jumpIfTrue .immediate .immediate) (loaded [1105, 1, 4]) = .next t) ∧
      (∃ t, exec (.jumpIfFalse .immediate .immediate) (loaded [1106, 1, 4]) = .next t) ∧
      (∃ t, exec (.adjustBase .immediate) (loaded [109, 5]) = .next t) ∧ ∃ t, exec .halt (loaded [99]) = .next t :=
  ⟨⟨_, rfl⟩, ⟨_, rfl⟩, ⟨_, rfl⟩, ⟨_, rfl⟩, ⟨_, rfl⟩⟩

/-- One running state for each status a step can lead to, and a stopped, a resumable and a loadable one. -/
theorem witness_StatusTransitionsAreThoseOfTheTable :
    ((after (step (loaded [99]))).map (·.status) = some .haltedNormally) ∧
      ((after (step (loaded [3, 0] [none]))).map (·.status) = some .blockedOnInput) ∧
      ((after (step (loaded [104, 1] [] [true]))).map (·.status) = some .outputRequestedStop) ∧
      ((after (step (loaded [0]))).map (·.status) = some .faulted) ∧
      ((after (step (loaded [109, 1]))).map (·.status) = some .running) ∧
      (after (step { atHalt with status := .haltedNormally })).isSome = true ∧
      (resume { atHalt with status := .blockedOnInput }).isSome = true ∧ faultedCore.status = .faulted ∧
      (load Config.hardware [99] faultedCore).isSome = true := by decide

theorem witness_PcAdvancesByTheLengthExceptForJumps :
    (∃ t, exec (.jumpIfTrue .immediate .immediate) (loaded [1105, 1, 100]) = .next t) ∧
      ∃ t, exec (.adjustBase .immediate) (loaded [109, 5]) = .next t := ⟨⟨_, rfl⟩, ⟨_, rfl⟩⟩

theorem witness_OnlyAdjustBaseChangesRb :
    ∃ t, stepWith Config.hardware (loaded [109, 10, 99]) = .next t ∧ t.rb ≠ (loaded [109, 10, 99]).rb :=
  ⟨_, rfl, by decide⟩

/-- A run of one cycle, from a HALT word. -/
theorem witness_RunsTo : RunsTo Config.hardware atHalt { atHalt with status := .haltedNormally } :=
  .cycle (by decide) rfl (.returns (by decide))

/-- The same run of the core with 32-bit cells and no relative base (R3, R4). -/
theorem test_run_of_the_variant : RunsTo ⟨.w32, false⟩ atHalt { atHalt with status := .haltedNormally } :=
  .cycle (by decide) rfl (.returns (by decide))

theorem witness_LenIsWrittenByLoadAlone :
    (∃ t, stepWith Config.hardware (loaded [1101, 1, 2, 1000000, 99]) = .next t) ∧
      (∃ t, RunsTo Config.hardware atHalt t) ∧ (load Config.hardware [99] State.reset).isSome = true :=
  ⟨⟨_, rfl⟩, ⟨_, witness_RunsTo⟩, by decide⟩

theorem witness_OutputsOnlyGrow :
    ∃ t, RunsTo Config.hardware (loaded [104, 5, 99] [] [true]) t :=
  ⟨_, .cycle (by decide) rfl (.returns (by decide))⟩

theorem witness_OnlyOutputPushesAndPushesOnce :
    (let s := loaded [104, 5, 99] [] [false]
     (∃ t, stepWith Config.hardware s = .next t ∧ t.status ≠ .faulted) ∧ s.status = .running ∧
       decode Config.hardware s.word = .ok (.output .immediate)) ∧
      ∃ t, stepWith ⟨.w32, false⟩ (loaded [99]) = .next t :=
  ⟨⟨⟨_, rfl, by decide⟩, by decide, rfl⟩, ⟨_, rfl⟩⟩

theorem witness_EveryStepKeepsTheInvariant :
    State.wf Config.hardware (loaded [1101, iMax, iMin, 0, 99]) ∧
      (∃ t, stepWith Config.hardware (loaded [1101, iMax, iMin, 0, 99]) = .next t) ∧
      State.wf ⟨.w32, false⟩ (loaded [99]) := ⟨by decide, ⟨_, rfl⟩, by decide⟩

theorem witness_HostOperationsKeepTheInvariant :
    State.wf Config.hardware State.reset ∧ (load Config.hardware [iMin, 0, iMax] State.reset).isSome = true ∧
      (resume State.reset).isSome = true ∧ State.wf Config.hardware faultedCore := by decide

theorem witness_MemoryLaws :
    (0 : Nat) ≠ 1 ∧ (load Config.hardware [5, 0, 7] State.reset).isSome = true := by decide

theorem witness_CanonicalMemoriesAreExtensional :
    Memory.wf (Memory.ofImage 0 [5, 0, 7]) ∧ Memory.wf [(0, 5), (2, 7)] ∧
      ∀ a, Memory.read (Memory.ofImage 0 [5, 0, 7]) a = Memory.read [(0, 5), (2, 7)] a :=
  ⟨by decide, by decide, fun _ => rfl⟩

theorem witness_MemoryAccessFaultsExactlyBelowZero : ((-1 : Int) < 0) ∧ ((0 : Int) ≤ 0) ∧ ((0 : Int) ≤ iMax) := by decide

theorem witness_CheckedArithmeticIsExactOrNothing :
    Config.hardware.InRange (iMax + iMin) ∧ ¬ Config.hardware.InRange (iMax + 1) ∧
      Config.hardware.InRange (3037000499 * 3037000499) ∧ ¬ Config.hardware.InRange (3037000500 * 3037000500) := by decide

/-- Each storing instruction with its destination at the next word (`k = 0`) or at the next parameter word (`k = 1`). -/
theorem witness_StoreIsSeenByTheNextFetch :
    (let s := loaded [1101, 98, 1, 4, 0, 0]
     sourceValue Config.hardware s 1 .immediate = some 98 ∧ sourceValue Config.hardware s 2 .immediate = some 1 ∧
       destAddress Config.hardware s 3 .position = some (s.pc + 4 + (0 : Nat)) ∧
       ∃ t, exec (.add .immediate .immediate .position) s = .next t ∧ t.status = .running) ∧
    (let s := loaded [1102, 9, 11, 5, 0, 0]
     sourceValue Config.hardware s 1 .immediate = some 9 ∧ sourceValue Config.hardware s 2 .immediate = some 11 ∧
       destAddress Config.hardware s 3 .position = some (s.pc + 4 + (1 : Nat)) ∧
       ∃ t, exec (.mul .immediate .immediate .position) s = .next t ∧ t.status = .running) ∧
    (let s := loaded [1107, 3, 8, 4, 0, 0]
     sourceValue Config.hardware s 1 .immediate = some 3 ∧ sourceValue Config.hardware s 2 .immediate = some 8 ∧
       destAddress Config.hardware s 3 .position = some (s.pc + 4 + (0 : Nat)) ∧
       ∃ t, exec (.lessThan .immediate .immediate .position) s = .next t ∧ t.status = .running) ∧
    (let s := loaded [1108, 8, 8, 5, 0, 0]
     sourceValue Config.hardware s 1 .immediate = some 8 ∧ sourceValue Config.hardware s 2 .immediate = some 8 ∧
       destAddress Config.hardware s 3 .position = some (s.pc + 4 + (1 : Nat)) ∧
       ∃ t, exec (.equals .immediate .immediate .position) s = .next t ∧ t.status = .running) ∧
    (let s := loaded [3, 2, 0] [some 99]
     destAddress Config.hardware s 1 .position = some (s.pc + 2 + (0 : Nat)) ∧ pullAnswer Config.hardware s.env = some 99 ∧
       ∃ t, exec (.input .position) s = .next t ∧ t.status = .running) :=
  ⟨⟨by decide, by decide, by decide, _, rfl, rfl⟩, ⟨by decide, by decide, by decide, _, rfl, rfl⟩,
    ⟨by decide, by decide, by decide, _, rfl, rfl⟩, ⟨by decide, by decide, by decide, _, rfl, rfl⟩,
    ⟨by decide, by decide, _, rfl, rfl⟩⟩

theorem witness_InstructionsDoNotLookAtLen :
    ∃ t, exec (.add .immediate .position .position) (loaded [101, 5]) = .next t := ⟨_, rfl⟩

/-- A word that decodes to one instruction decodes to no other. -/
theorem decodes_to_no_other {w : Int} {i : Instr} (h : decode Config.hardware w = .ok i) {f : Mode → Instr}
    (hne : ∀ m, i ≠ f m) : ¬ ∃ m, decode Config.hardware w = .ok (f m) :=
  fun ⟨m, hm⟩ => hne m (Except.ok.inj (h.symm.trans hm))

/-- An INPUT under two environments that agree on the pull and not on the stop, an OUTPUT the other way round, and an ADD
under two that agree on nothing. -/
theorem witness_CycleIsAFunctionOfCoreAndAnswers :
    (let s := loaded [3, 0] [some 7] [true]
     let s' := loaded [3, 0] [some 7, none] [false]
     s.toCoreState = s'.toCoreState ∧ pullAnswer Config.hardware s.env = pullAnswer Config.hardware s'.env ∧
       ¬ (∃ m, decode Config.hardware s.word = .ok (.output m)) ∧ ∃ t, stepWith Config.hardware s = .next t) ∧
    (let s := loaded [104, 5] [some 7] [true]
     let s' := loaded [104, 5] [none] [true, false]
     s.toCoreState = s'.toCoreState ∧ stopAnswer s.env = stopAnswer s'.env ∧
       ¬ (∃ m, decode Config.hardware s.word = .ok (.input m)) ∧ ∃ t, stepWith Config.hardware s = .next t) ∧
    (let s := loaded [1101, 1, 2, 0] [some 7] [true]
     let s' := loaded [1101, 1, 2, 0] [none] [false]
     s.toCoreState = s'.toCoreState ∧ ¬ (∃ m, decode Config.hardware s.word = .ok (.input m)) ∧
       ¬ (∃ m, decode Config.hardware s.word = .ok (.output m)) ∧ ∃ t, stepWith Config.hardware s = .next t) :=
  ⟨⟨rfl, rfl, decodes_to_no_other (i := .input .position) rfl (fun _ => nofun), _, rfl⟩,
    ⟨rfl, rfl, decodes_to_no_other (i := .output .immediate) rfl (fun _ => nofun), _, rfl⟩,
    ⟨rfl, decodes_to_no_other (i := .add .immediate .immediate .position) rfl (fun _ => nofun),
      decodes_to_no_other (i := .add .immediate .immediate .position) rfl (fun _ => nofun), _, rfl⟩⟩

theorem witness_WithoutRelativeBase :
    (⟨.w64, false⟩ : Params).relbaseEn = false ∧ (9 : Int) % 100 = 9 ∧ (99909 : Int) % 100 = 9 ∧
      ∃ t, stepWith ⟨.w64, false⟩ (loaded [104, 5] [] [false]) = .next t :=
  ⟨rfl, by decide, by decide, _, rfl⟩

theorem witness_LargeProductNeedsWideCells :
    let s := loaded [1102, 34915192, 34915192, 7, 4, 7, 99, 0]
    s.pc = 0 ∧ s.param 1 = 34915192 ∧ s.param 2 = 34915192 ∧ s.param 3 = 7 := by decide

theorem witness_LoadIsReset :
    ¬(∀ v ∈ [iMax + 1], Config.hardware.InRange v) ∧ (∀ v ∈ [iMin, iMax], Config.hardware.InRange v) ∧
      (([] : List Int).length : Int) ≤ Config.hardware.intMax - 3 := by decide

theorem witness_ResumeByStatus :
    State.reset.status ≠ .faulted ∧ faultedCore.status = .faulted ∧
      (let s := { atHalt with status := .haltedNormally }
       s.status = .haltedNormally ∧ 0 ≤ s.pc ∧ s.pc < (s.len : Int) ∧ decode Config.hardware s.word = .ok .halt) :=
  ⟨by decide, by decide, by decide, by decide, by decide, rfl⟩

theorem witness_ResumptionIsTransparent :
    (let s := loaded [3, 0, 4, 0, 99] [none, some 7]
     s.status = .running ∧ 0 ≤ s.pc ∧ s.pc < (s.len : Int) ∧ decode Config.hardware s.word = .ok (.input .position) ∧
       Config.hardware.InRange 7 ∧ destAddress Config.hardware s 1 .position = some 0 ∧ s.env.pulls = none :: some 7 :: []) ∧
    (let s := loaded [104, 5, 99] [] [true]
     s.status = .running ∧ 0 ≤ s.pc ∧ s.pc < (s.len : Int) ∧ decode Config.hardware s.word = .ok (.output .immediate) ∧
       sourceValue Config.hardware s 1 .immediate = some 5 ∧ s.env.stops = [true]) :=
  ⟨⟨by decide, by decide, by decide, rfl, by decide, by decide, rfl⟩, by decide, by decide, by decide, rfl, by decide, by decide⟩

theorem witness_JumpToItselfRunsForever :
    let s := loaded [1105, 1, 0]  -- V-JT-9
    s.status = .running ∧ 0 ≤ s.pc ∧ s.pc < (s.len : Int) ∧ s.word = 1105 ∧ s.param 1 = 1 ∧ s.param 2 = s.pc := by decide

theorem witness_SuccessfulRunEndsAtAHalt :
    atHalt.status = .running ∧ RunsTo Config.hardware atHalt { atHalt with status := .haltedNormally } ∧
      State.terminatedSuccessfully { atHalt with status := .haltedNormally } := ⟨by decide, witness_RunsTo, rfl⟩

/-- A state from which `run` returns, and the count of cycles it takes. -/
theorem witness_RunReturnsOrGoesOnForever :
    ∃ t, RunsTo Config.hardware atHalt t ∧ runFor Config.hardware 1 atHalt = some t ∧ t.status ≠ .running :=
  ⟨_, witness_RunsTo, rfl, by decide⟩

theorem witness_PlacedTableWordRunsNext : decodeTableWord 64 1101 = some (.add .immediate .immediate .position) := by rfl

theorem witness_ThisHardwareIsAnInstanceOfTheCore :
    atHalt.status = .running ∧ 0 ≤ atHalt.pc ∧ atHalt.pc < (atHalt.len : Int) ∧
      decode ⟨.w32, false⟩ atHalt.word = .ok .halt := ⟨by decide, by decide, by decide, rfl⟩

end Sys2Proof.Tests
end

section
/-! PROOFS of the family of spec/00_scope.md. First what serves every rule about steps: what a step can do, said once, and
how the decoder answers a word whose opcode is not known. Then the invariant `State.wf`: one rule per update of the
state, one per shape of instruction, and the step. -/

namespace Sys2Proof.Machine

/-! ### What a step can do -/

theorem State.pcOutOfRange_eq_false {s : State} : s.pcOutOfRange = false ↔ 0 ≤ s.pc ∧ s.pc < (s.len : Int) := by
  simp [State.pcOutOfRange]

/-- A cycle whose word is fetched and decodes runs the instruction (R70 to R73). -/
theorem cycleWith_decoded {p : Params} (execute : Instr → State → Answer) {s : State} {i : Instr} (h0 : 0 ≤ s.pc)
    (hl : s.pc < (s.len : Int)) (hd : decode p s.word = .ok i) : cycleWith p execute s = execute i s := by
  have hpc : s.pcOutOfRange = false := State.pcOutOfRange_eq_false.mpr ⟨h0, hl⟩
  simp [cycleWith, hpc, hd]

/-- The step of a `Running` core whose word is fetched and decodes is the instruction's. -/
theorem stepWith_decoded {p : Params} {s : State} {i : Instr} (hr : s.status = .running) (h0 : 0 ≤ s.pc)
    (hl : s.pc < (s.len : Int)) (hd : decode p s.word = .ok i) : stepWith p s = execWith p i s := by
  rw [stepWith, tickWith_running p _ hr, cycleWith_decoded _ h0 hl hd]

/-- All the next states of a step: a stopped core stays as it is; a `Running` one takes a fault of steps 1 and 2 of the
cycle, or goes where the decoded instruction goes. -/
theorem stepWith_cases {p : Params} {s t : State} (h : stepWith p s = .next t) :
    (s.status ≠ .running ∧ t = s) ∨ (s.status = .running ∧ ∃ r, t = s.raise r) ∨
      (s.status = .running ∧ 0 ≤ s.pc ∧ s.pc < (s.len : Int) ∧
        ∃ i, decode p s.word = .ok i ∧ execWith p i s = .next t) := by
  by_cases hr : s.status = .running
  · rw [stepWith, tickWith_running p _ hr] at h
    rcases cycleWith_cases p (execWith p) s with ⟨r, hc⟩ | ⟨i, hpc, hd, hc⟩
    · rw [hc, Host.Outcome.next.injEq] at h
      exact .inr (.inl ⟨hr, r, h.symm⟩)
    · obtain ⟨h0, hl⟩ := State.pcOutOfRange_eq_false.mp hpc
      exact .inr (.inr ⟨hr, h0, hl, i, hd, hc ▸ h⟩)
  · exact .inl ⟨hr, tickWith_stopped hr h⟩

/-! ### What INPUT and OUTPUT leave unchanged -/

@[simp] theorem storeInput_rb (s : State) (d : Int) (a : Option Int) : (storeInput s d a).rb = s.rb := by
  cases a <;> rfl

@[simp] theorem finishOutput_rb (s : State) (stop : Bool) : (finishOutput s stop).rb = s.rb := rfl

/-! ### The relative base -/

/-- A word `w >= 0` whose opcode is not known is rejected as such, whatever its other digits (R59, R61). -/
theorem decode_of_not_knownOpcode {p : Params} {w : Int} (hw : 0 ≤ w) (hk : ¬ knownOpcode p w) :
    decode p w = .error .unknownOpcode := by
  rcases opcodeRow_cases p hw with ⟨hk', -⟩ | ⟨-, hrow⟩
  · exact absurd hk' hk
  · simp [decode, hrow, not_lt.mpr hw]

/-- Only ADJUST-BASE, where it exists, gives `rb` a value (R13). -/
theorem execWith_rb {p : Params} {i : Instr} {s t : State} (h : execWith p i s = .next t) :
    t.rb = s.rb ∨ Adjusts p i s t := by
  rcases execWith_cases p i s t h with ⟨r, rfl⟩ | ⟨_, _, _, _, _, -, rfl, -⟩ | ⟨_, _, _, -, -, rfl | rfl⟩ |
    ⟨_, _, -, -, -, rfl⟩ | ⟨_, _, -, -, rfl⟩ | ha | ⟨-, rfl⟩
  case inr.inr.inr.inr.inr.inl => exact .inr ha
  all_goals exact .inl (by simp)

/-- Without the relative base no step changes the field `rb` (R4). -/
theorem stepWith_rb_of_no_relbase {p : Params} (hp : p.relbaseEn = false) {s t : State}
    (h : stepWith p s = .next t) : t.rb = s.rb := by
  rcases stepWith_cases h with ⟨-, rfl⟩ | ⟨-, r, rfl⟩ | ⟨-, -, -, i, -, hx⟩
  · rfl
  · rfl
  · rcases execWith_rb hx with hrb | ⟨_, _, -, hen, -⟩
    · exact hrb
    · simp [hp] at hen

/-! ### Values -/

theorem Params.intMin_nonpos (p : Params) : p.intMin ≤ 0 := (Params.zero_inRange p).1

theorem Params.intMax_nonneg (p : Params) : 0 ≤ p.intMax := (Params.zero_inRange p).2

/-- The two results of a comparison are values whatever `XLEN` is (R105, R106). -/
theorem Params.truth_inRange (p : Params) (c : Prop) [Decidable c] : p.InRange (if c then 1 else 0) := by
  split
  · obtain ⟨x, b⟩ := p
    cases x <;> simp [Params.InRange, Params.intMin, Params.intMax, XLen.bits]
  · exact Params.zero_inRange p

/-- A checked result is a value (R6). -/
theorem checked_inRange {p : Params} {r v : Int} (h : checked p r = some v) : p.InRange v := by
  obtain ⟨hr, rfl⟩ := checked_eq_some.mp h
  exact hr

/-! ### The invariant: what each update of the state needs in order to keep it -/

namespace State.wf

variable {p : Params} {s : State}

theorem cell_inRange (h : State.wf p s) (a : Int) : p.InRange (s.cell a) := by
  obtain ⟨-, hcells, -⟩ := h
  exact Memory.read_inRange hcells a.toNat

theorem raise (h : State.wf p s) (r : FaultRecord) : State.wf p (s.raise r) := by
  obtain ⟨hmem, hcells, hpc, hrb, hlen, -⟩ := h
  exact ⟨hmem, hcells, hpc, hrb, hlen, by simp⟩

theorem setCell (h : State.wf p s) {a v : Int} (ha : a ≤ p.intMax) (hv : p.InRange v) :
    State.wf p (s.setCell a v) := by
  obtain ⟨hmem, hcells, hrest⟩ := h
  have hnat : (a.toNat : Int) ≤ p.intMax := by
    have := Params.intMax_nonneg p
    omega
  exact ⟨Memory.write_wf _ _ hmem, Memory.write_inRange hcells hnat hv, hrest⟩

theorem jumpTo (h : State.wf p s) {target : Int} (ht : p.InRange target) : State.wf p (s.jumpTo target) := by
  obtain ⟨hmem, hcells, -, hrest⟩ := h
  exact ⟨hmem, hcells, ht, hrest⟩

/-- An instruction inside the image is at most four cells long, and the bound of `len` leaves it room (R36, D16). -/
theorem advance (h : State.wf p s) (h0 : 0 ≤ s.pc) (hl : s.pc < (s.len : Int)) {n : Nat} (hn : n ≤ 4) :
    State.wf p (s.advance n) := by
  have ⟨_, _, _, _, hlen, _⟩ := h
  have hlow : p.intMin ≤ s.pc + n := (Params.intMin_nonpos p).trans (add_nonneg h0 n.cast_nonneg)
  have hhigh : s.pc + n ≤ p.intMax := by
    unfold Params.maxImageLen at hlen
    omega
  exact h.jumpTo ⟨hlow, hhigh⟩

theorem setRb (h : State.wf p s) {v : Int} (hv : p.InRange v) : State.wf p (s.setRb v) := by
  obtain ⟨hmem, hcells, hpc, -, hrest⟩ := h
  exact ⟨hmem, hcells, hpc, hv, hrest⟩

theorem setStatus (h : State.wf p s) (hs : s.status ≠ .faulted) {x : Status} (hx : x ≠ .faulted) :
    State.wf p (s.setStatus x) := by
  obtain ⟨hmem, hcells, hpc, hrb, hlen, hfault⟩ := h
  exact ⟨hmem, hcells, hpc, hrb, hlen, by simpa [hx, hs] using hfault⟩

theorem pulled (h : State.wf p s) : State.wf p s.pulled := h

theorem pushed (h : State.wf p s) (v : Int) : State.wf p (s.pushed v) := h

/-- A destination's address is a value: it was read from a cell, or its sum was checked (R75, R77, R79). -/
theorem dest_le_intMax (h : State.wf p s) {i : Nat} {m : Mode} {d : Int} (hd : resolve p s .dst i m = .ok d) :
    d ≤ p.intMax := by
  rcases resolve_ok hd with ⟨-, rfl⟩ | ⟨-, hrole, -⟩ | ⟨-, -, hsum, rfl⟩
  · exact (h.cell_inRange _).2
  · cases hrole
  · exact hsum.2

end State.wf

/-! ### The invariant: what each shape of instruction does to it -/

section Shapes

variable {p : Params} {i : Instr} {s t : State} (hw : State.wf p s) (h0 : 0 ≤ s.pc) (hl : s.pc < (s.len : Int))
include hw h0 hl

theorem StoresResult.wf (h : StoresResult p i s t) : State.wf p t := by
  obtain ⟨m1, m2, m3, o, v, ho, rfl, hv⟩ := h
  obtain ⟨_, _, -, -, hdest, -⟩ := operandsF3_ok ho
  have hv : p.InRange v := by
    rcases hv with ⟨-, hv⟩ | ⟨-, hv⟩ | ⟨-, rfl⟩ | ⟨-, rfl⟩
    · exact checked_inRange hv
    · exact checked_inRange hv
    · exact Params.truth_inRange p _
    · exact Params.truth_inRange p _
  exact (hw.setCell (hw.dest_le_intMax hdest) hv).advance h0 hl le_rfl

theorem Jumps.wf (h : Jumps p i s t) : State.wf p t := by
  obtain ⟨m1, m2, o, -, ho, rfl | rfl⟩ := h
  · obtain ⟨_, a2, -, -, -, -, -, hv2⟩ := operandsF2_ok ho
    exact hw.jumpTo (hv2 ▸ hw.cell_inRange a2)
  · exact hw.advance h0 hl (by decide)

theorem Inputs.wf (hs : s.status ≠ .faulted) (h : Inputs p i s t) : State.wf p t := by
  obtain ⟨m, d, -, hd, hoffer, rfl⟩ := h
  obtain ⟨hdest, -⟩ := operandF1D_ok hd
  cases ha : pullAnswer p s.env with
  | none => exact hw.pulled.setStatus hs (by decide)
  | some v =>
    have hv : p.InRange v := pullAnswer_inRange hoffer ha
    exact (hw.pulled.setCell (hw.dest_le_intMax hdest) hv).advance h0 hl (by decide)

theorem Outputs.wf (hs : s.status ≠ .faulted) (h : Outputs p i s t) : State.wf p t := by
  obtain ⟨m, v, -, -, rfl⟩ := h
  have hadv : State.wf p ((s.pushed v).advance 2) := (hw.pushed v).advance h0 hl (by decide)
  refine hadv.setStatus hs ?_
  split
  · decide
  · exact hs

theorem Adjusts.wf (h : Adjusts p i s t) : State.wf p t := by
  obtain ⟨m, v, -, -, -, hsum, rfl⟩ := h
  exact (hw.setRb hsum).advance h0 hl (by decide)

/-- Every instruction that is fetched inside the image keeps the invariant. -/
theorem execWith_keeps_wf (hs : s.status ≠ .faulted) (h : execWith p i s = .next t) : State.wf p t := by
  rcases execWith_cases p i s t h with ⟨r, rfl⟩ | hst | hj | hin | hout | hadj | ⟨-, rfl⟩
  · exact hw.raise r
  · exact hst.wf hw h0 hl
  · exact hj.wf hw h0 hl
  · exact hin.wf hw h0 hl hs
  · exact hout.wf hw h0 hl hs
  · exact hadj.wf hw h0 hl
  · exact hw.setStatus hs (by decide)

end Shapes

/-- Every step keeps the invariant. -/
theorem stepWith_keeps_wf {p : Params} {s t : State} (hw : State.wf p s) (h : stepWith p s = .next t) :
    State.wf p t := by
  rcases stepWith_cases h with ⟨-, rfl⟩ | ⟨-, r, rfl⟩ | ⟨hr, h0, hl, i, -, hx⟩
  · exact hw
  · exact hw.raise r
  · exact execWith_keeps_wf hw h0 hl (by simp [hr]) hx

/-! ### The statements -/

/-- Settles O40: a stopped core stays as it is, a fault changes only `status` and `fault` together, and an instruction is
fetched below `len`, whose bound leaves room for `pc + 4`. -/
theorem everyStepKeepsTheInvariant : Obligations.EveryStepKeepsTheInvariant :=
  fun _ _ _ hw h => stepWith_keeps_wf hw h

/-- Settles O49: without the relative base opcode 9 is no known opcode, mode 2 is a bad mode by the definition of phase A,
and ADJUST-BASE, the one instruction that writes `rb`, does not exist. -/
theorem withoutRelativeBase : Obligations.WithoutRelativeBase := by
  refine ⟨hardware_relbaseEn, fun p hp => ⟨fun w hw h9 => ?_, fun s role i => ?_, fun s t h => ?_⟩⟩
  · have hk : ¬ knownOpcode p w := by simp [knownOpcode, h9, hp]
    exact decode_of_not_knownOpcode hw hk
  · simp [resolve, hp]
  · exact stepWith_rb_of_no_relbase hp h

/-- Settles O45, by the two cases of `checked`: the result lies in `Int` or it does not. -/
theorem checkedArithmeticIsExactOrNothing : Obligations.CheckedArithmeticIsExactOrNothing :=
  fun _ _ _ => ⟨fun h => addChk_eq_some.mpr ⟨h, rfl⟩, addChk_eq_none.mpr,
    fun h => mulChk_eq_some.mpr ⟨h, rfl⟩, mulChk_eq_none.mpr⟩

/-- Settles O59: `exec` is `execWith` at this hardware's parameters, and the cycle hands the decoded instruction on. -/
theorem thisHardwareIsAnInstanceOfTheCore : Obligations.ThisHardwareIsAnInstanceOfTheCore :=
  ⟨rfl, step_eq_stepWith, fun _ _ _ hr h0 hl hd => stepWith_decoded hr h0 hl hd⟩

end Sys2Proof.Machine
end

section
/-! PROOFS of the family of spec/10_state.md. First the bridges that serve other families too: the operand of the
one-parameter formats is the one the table of the modes gives, and what an accepted load leaves. Then, per piece of
state (`rb`, `len`, the values pushed), what an instruction and a step do to it. -/

namespace Sys2Proof.Machine

/-! ### The operand of a one-parameter instruction, by the table of the modes -/

theorem operandFault_single_eq_none {p : Params} {s : State} {role : Role} {m : Mode} :
    operandFault p s [(role, m)] = none ↔ resolveFault p s role 1 m = none ∧ accessFault s 1 m = none := by
  simp [operandFault, Option.or_eq_none_iff]

/-- Phases A and B of one source succeed exactly when the table gives it a value, and answer that value (R80). -/
theorem operandF1S_eq_ok {p : Params} {s : State} {m : Mode} {v : Int} :
    operandF1S p s m = .ok v ↔ sourceValue p s 1 m = some v := by
  rw [sourceValue_eq_some, ← and_assoc, ← operandFault_single_eq_none, operandF1S_eq]
  cases operandFault p s [(.src, m)] <;> simp

/-- Phases A and B of one destination succeed exactly when the table gives it an address, and answer it (R81). -/
theorem operandF1D_eq_ok {p : Params} {s : State} {m : Mode} {d : Int} :
    operandF1D p s m = .ok d ↔ destAddress p s 1 m = some d := by
  rw [destAddress_eq_some, ← and_assoc, ← operandFault_single_eq_none, operandF1D_eq]
  cases operandFault p s [(.dst, m)] <;> simp

/-! ### What INPUT and OUTPUT leave of `len` and of the environment -/

@[simp] theorem storeInput_len (s : State) (d : Int) (a : Option Int) : (storeInput s d a).len = s.len := by
  cases a <;> rfl

@[simp] theorem storeInput_env (s : State) (d : Int) (a : Option Int) : (storeInput s d a).env = s.env := by
  cases a <;> rfl

@[simp] theorem finishOutput_len (s : State) (stop : Bool) : (finishOutput s stop).len = s.len := rfl

@[simp] theorem finishOutput_env (s : State) (stop : Bool) : (finishOutput s stop).env = s.env := rfl

@[simp] theorem Env.pulled_outputs (e : Env) : e.pulled.outputs = e.outputs := by
  unfold Env.pulled
  split <;> rfl

@[simp] theorem Env.pushed_outputs (e : Env) (v : Int) : (e.pushed v).outputs = e.outputs ++ [v] := by
  unfold Env.pushed
  split <;> rfl

/-! ### `len` -/

/-- No instruction writes `len` (R15). -/
theorem execWith_len {p : Params} {i : Instr} {s t : State} (h : execWith p i s = .next t) : t.len = s.len := by
  rcases execWith_cases p i s t h with ⟨r, rfl⟩ | ⟨_, _, _, _, _, -, rfl, -⟩ | ⟨_, _, _, -, -, rfl | rfl⟩ |
    ⟨_, _, -, -, -, rfl⟩ | ⟨_, _, -, -, rfl⟩ | ⟨_, _, -, -, -, -, rfl⟩ | ⟨-, rfl⟩
  all_goals simp

/-- No step writes `len` (R15). -/
theorem stepWith_len {p : Params} {s t : State} (h : stepWith p s = .next t) : t.len = s.len := by
  rcases stepWith_cases h with ⟨-, rfl⟩ | ⟨-, r, rfl⟩ | ⟨-, -, -, i, -, hx⟩
  · rfl
  · rfl
  · exact execWith_len hx

/-- An accepted load leaves the core of the image and the environment as it was (R140). -/
theorem load_eq_some {p : Params} {image : List Int} {s t : State} :
    load p image s = some t ↔ admissible p image ∧ { s with toCoreState := loadedCore image } = t := by
  simp [load]

/-! ### The values pushed -/

/-- An OUTPUT that goes on pushes the value of its source and nothing else (R96). -/
theorem Outputs.appends {p : Params} {i : Instr} {s t : State} (h : Outputs p i s t) :
    ∃ m v, i = .output m ∧ sourceValue p s 1 m = some v ∧ t.env.outputs = s.env.outputs ++ [v] := by
  obtain ⟨m, v, rfl, hv, rfl⟩ := h
  exact ⟨m, v, rfl, operandF1S_eq_ok.mp hv, by simp⟩

/-- Only an OUTPUT that goes on touches the values pushed (R20). -/
theorem execWith_outputs {p : Params} {i : Instr} {s t : State} (h : execWith p i s = .next t) :
    t.env.outputs = s.env.outputs ∨ Outputs p i s t := by
  rcases execWith_cases p i s t h with ⟨r, rfl⟩ | ⟨_, _, _, _, _, -, rfl, -⟩ | ⟨_, _, _, -, -, rfl | rfl⟩ |
    ⟨_, _, -, -, -, rfl⟩ | ho | ⟨_, _, -, -, -, -, rfl⟩ | ⟨-, rfl⟩
  case inr.inr.inr.inr.inl => exact .inr ho
  all_goals exact .inl (by simp)

/-- A step leaves the values pushed, or ran an OUTPUT and appended its operand. -/
theorem stepWith_outputs {p : Params} {s t : State} (h : stepWith p s = .next t) :
    t.env.outputs = s.env.outputs ∨
      ∃ m v, decode p s.word = .ok (.output m) ∧ sourceValue p s 1 m = some v ∧
        t.env.outputs = s.env.outputs ++ [v] := by
  rcases stepWith_cases h with ⟨-, rfl⟩ | ⟨-, r, rfl⟩ | ⟨-, -, -, i, hd, hx⟩
  · exact .inl rfl
  · exact .inl rfl
  · rcases execWith_outputs hx with hsame | ho
    · exact .inl hsame
    · obtain ⟨m, v, rfl, hv⟩ := ho.appends
      exact .inr ⟨m, v, hd, hv⟩

/-- An OUTPUT that does not fault goes on. -/
theorem execWith_output_completes {p : Params} {m : Mode} {s t : State} (h : execWith p (.output m) s = .next t)
    (ht : t.status ≠ .faulted) : ∃ v, sourceValue p s 1 m = some v ∧ t.env.outputs = s.env.outputs ++ [v] := by
  have h' : outputWith p m s = .next t := h
  rcases outputWith_cases p m s with ⟨r, hr⟩ | ⟨v, hv, hr⟩
  · cases hr.symm.trans h'
    exact absurd rfl ht
  · cases hr.symm.trans h'
    exact ⟨v, operandF1S_eq_ok.mp hv, by simp⟩

/-! ### The statements -/

/-- Settles O35: of all next states of a step, only those of a decoded ADJUST-BASE have another `rb`. -/
theorem onlyAdjustBaseChangesRb : Obligations.OnlyAdjustBaseChangesRb := by
  intro p s t h hne
  rcases stepWith_cases h with ⟨-, rfl⟩ | ⟨-, r, rfl⟩ | ⟨-, -, -, i, hd, hx⟩
  · exact absurd rfl hne
  · exact absurd rfl hne
  · rcases execWith_rb hx with hrb | ⟨m, _, rfl, -⟩
    · exact absurd hrb hne
    · exact ⟨m, hd⟩

/-- Settles O36: no instruction writes `len`, so no step does, so every cycle of a run keeps it. -/
theorem lenIsWrittenByLoadAlone : Obligations.LenIsWrittenByLoadAlone := by
  refine fun p => ⟨fun _ _ => stepWith_len, fun s t h => ?_, fun image s t h => ?_⟩
  · exact h.keeps (P := fun u => u.len = s.len) (fun _ hstep hlen => (stepWith_len hstep).trans hlen) rfl
  · obtain ⟨-, rfl⟩ := load_eq_some.mp h
    rfl

/-- Settles O38: a step appends only by a decoded OUTPUT, and an OUTPUT that is reached and does not fault appends. -/
theorem onlyOutputPushesAndPushesOnce : Obligations.OnlyOutputPushesAndPushesOnce := by
  refine fun p s t h => ⟨stepWith_outputs h, fun m hr hd ht => ?_⟩
  rcases stepWith_cases h with ⟨hn, -⟩ | ⟨-, r, rfl⟩ | ⟨-, -, -, i, hi, hx⟩
  · exact absurd hr hn
  · exact absurd rfl ht
  · obtain rfl : i = .output m := Except.ok.inj (hi.symm.trans hd)
    exact execWith_output_completes hx ht

/-- Settles O37: every cycle leaves the list or appends to it, so the list at the start of the run stays its beginning. -/
theorem outputsOnlyGrow : Obligations.OutputsOnlyGrow := by
  intro p s t h
  have hbegins : s.env.outputs <+: t.env.outputs := by
    refine h.keeps (P := fun u => s.env.outputs <+: u.env.outputs) (fun _ hstep hu => ?_) List.prefix_rfl
    rcases stepWith_outputs hstep with hsame | ⟨_, v, -, -, happ⟩
    · exact hsame ▸ hu
    · exact happ ▸ hu.trans (List.prefix_append _ _)
  obtain ⟨vs, hvs⟩ := hbegins
  exact ⟨vs, hvs.symm⟩

/-- Settles O22: the destination resolves, so INPUT comes to the answer, and an answer outside the range is refused. -/
theorem outOfRangeInputIsRefused : Obligations.OutOfRangeInputIsRefused := by
  intro m1 s d v hd hv hout
  have hdest : operandF1D Config.hardware s m1 = .ok d := operandF1D_eq_ok.mpr hd
  have hoffer : s.env.offersOutOfRange Config.hardware = true := offersOutOfRange_iff.mpr ⟨v, hv, hout⟩
  simp [exec, execInput, inputWith, withOperands, hdest, hoffer]

/-- Settles O39: the empty image leaves a memory without entries and 0 in every register. -/
theorem resetMeetsTheInvariant : Obligations.ResetMeetsTheInvariant :=
  ⟨State.reset_mem_wf, by simp [State.reset], Params.zero_inRange _, Params.zero_inRange _, by simp [State.reset],
    by simp [State.reset]⟩

end Sys2Proof.Machine
end

section
/-! PROOFS of the family of spec/20_memory.md. First the memory as a function of its addresses: what a write and a loaded
image read back, and that a canonical memory lists exactly the cells that do not read 0. Then how a store is seen after
the instruction has advanced `pc`. -/

namespace Sys2Proof.Machine

/-! ### What a written memory and a loaded image read -/

/-- A written cell holds the value, be it 0, whose entry is erased, or listed (R33, R34). -/
theorem Memory.read_write_self (m : Memory) (a : Nat) (v : Int) : Memory.read (m.write a v) a = v := by
  unfold Memory.write
  split
  next hv => exact hv ▸ Memory.read_unlisted _ (Memory.erase_unlisted m a)
  next => exact Memory.read_insert_self _ v (Memory.erase_unlisted m a)

/-- A write leaves every other cell (R33). -/
theorem Memory.read_write_ne (m : Memory) {a b : Nat} (v : Int) (h : b ≠ a) :
    Memory.read (m.write a v) b = Memory.read m b := by
  unfold Memory.write
  split
  · exact Memory.read_erase_ne m h
  · rw [Memory.read_insert_ne _ v h, Memory.read_erase_ne m h]

/-- The memory of an image that starts at `a` holds nothing below `a`. -/
theorem Memory.read_ofImage_below (image : List Int) {a b : Nat} (h : b < a) :
    Memory.read (Memory.ofImage a image) b = 0 := by
  refine Memory.read_unlisted _ fun e he => ?_
  have hle : a ≤ e.1 := (Memory.ofImage_entry he).1
  omega

/-- An image that starts at `a` is read from `a` upward, and 0 beyond its end (R36). -/
theorem Memory.read_ofImage (image : List Int) (a k : Nat) :
    Memory.read (Memory.ofImage a image) (a + k) = image.getD k 0 := by
  induction image generalizing a k with
  | nil => rfl
  | cons v rest ih =>
    cases k with
    | zero =>
      unfold Memory.ofImage
      split
      next hv => simpa [hv] using Memory.read_ofImage_below rest (Nat.lt_succ_self a)
      next => simp [Memory.read]
    | succ k =>
      have hrest : Memory.read (Memory.ofImage (a + 1) rest) (a + (k + 1)) = rest.getD k 0 := by
        rw [← ih (a + 1) k, Nat.add_right_comm, Nat.add_assoc]
      unfold Memory.ofImage
      split
      · simpa using hrest
      · simpa [Memory.read] using hrest

/-! ### A canonical memory is determined by its reads -/

/-- The addresses after the first entry all lie above it, so there the rest of the memory reads 0. -/
theorem Memory.read_tail_eq_zero {e : Nat × Int} {rest : Memory} (h : Memory.wf (e :: rest)) :
    Memory.read rest e.1 = 0 := by
  obtain ⟨hrise, -⟩ := h
  exact Memory.read_unlisted rest fun x hx => (List.rel_of_pairwise_cons hrise hx).ne'

/-- A canonical memory lists exactly the cells that do not hold 0, each with what is read there (R34). -/
theorem Memory.mem_iff_read {m : Memory} (h : Memory.wf m) {a : Nat} {v : Int} :
    (a, v) ∈ m ↔ v ≠ 0 ∧ Memory.read m a = v := by
  induction m with
  | nil => simp [Memory.read, eq_comm]
  | cons e rest ih =>
    obtain ⟨k, x⟩ := e
    have hx : x ≠ 0 := h.2 (k, x) List.mem_cons_self
    have hrest : Memory.wf rest := ⟨h.1.of_cons, fun e he => h.2 e (List.mem_cons_of_mem _ he)⟩
    by_cases hk : a = k
    · subst hk
      have hzero : Memory.read rest a = 0 := Memory.read_tail_eq_zero h
      have hnot : (a, v) ∉ rest := fun hin => by
        obtain ⟨hv, hread⟩ := (ih hrest).mp hin
        exact hv (hread.symm.trans hzero)
      simp only [List.mem_cons, Prod.mk.injEq, true_and, hnot, or_false, Memory.read, if_true]
      exact ⟨fun hvx => ⟨hvx ▸ hx, hvx.symm⟩, fun hvx => hvx.2.symm⟩
    · simp [Memory.read, hk, ih hrest]

/-- Strictly rising lists with the same entries are equal, so canonical memories that read alike are (R34). -/
theorem Memory.ext_read {m n : Memory} (hm : Memory.wf m) (hn : Memory.wf n)
    (h : ∀ a, Memory.read m a = Memory.read n a) : m = n := by
  have hirrefl : Std.Irrefl fun x y : Nat × Int => x.1 < y.1 := ⟨fun _ => lt_irrefl _⟩
  have hanti : Std.Antisymm fun x y : Nat × Int => x.1 < y.1 := ⟨fun _ _ hxy hyx => absurd hyx hxy.asymm⟩
  refine hm.1.eq_of_mem_iff hn.1 fun e => ?_
  rw [Memory.mem_iff_read hm, Memory.mem_iff_read hn, h]

/-! ### The operands of an F3 instruction, by the table of the modes -/

/-- Phases A and B of two sources and a destination succeed with what the table gives each parameter (R80, R81). -/
theorem operandsF3_of_table {p : Params} {s : State} {m1 m2 m3 : Mode} {a b d : Int}
    (ha : sourceValue p s 1 m1 = some a) (hb : sourceValue p s 2 m2 = some b)
    (hd : destAddress p s 3 m3 = some d) : operandsF3 p s m1 m2 m3 = .ok ⟨a, b, d⟩ := by
  obtain ⟨hres1, hacc1, rfl⟩ := sourceValue_eq_some.mp ha
  obtain ⟨hres2, hacc2, rfl⟩ := sourceValue_eq_some.mp hb
  obtain ⟨hres3, hacc3, rfl⟩ := destAddress_eq_some.mp hd
  have hnone : operandFault p s [(.src, m1), (.src, m2), (.dst, m3)] = none := by
    simp [operandFault, hres1, hacc1, hres2, hacc2, hres3, hacc3]
  rw [operandsF3_eq, hnone]

/-! ### A store as the next cycle sees it -/

/-- The instruction word is the cell 0 beyond `pc`. -/
theorem State.word_eq_param_zero (s : State) : s.word = s.param 0 := by
  simp [State.word, State.param]

/-- A store `k` cells beyond the next instruction is read there once `pc` has advanced to it (R44). -/
theorem State.param_setCell_advance (s : State) (n k : Nat) (v : Int) :
    ((s.setCell (s.pc + n + k) v).advance n).param k = v := by
  simp [State.param, State.cell, Memory.read_write_self]

/-- What is read 0 cells beyond `pc` is what is fetched. -/
theorem State.param_and_word {t : State} {k : Nat} {v : Int} (h : t.param k = v) :
    t.param k = v ∧ (k = 0 → t.word = v) := by
  refine ⟨h, fun hk => ?_⟩
  rw [State.word_eq_param_zero, ← hk, h]

/-- An F3 instruction that leaves the core `Running` did not fault: the next cycle reads the result of its operation. -/
theorem binaryToMemory_result_read {p : Params} {f : Int → Int → Option Int} {m1 m2 m3 : Mode} {s t : State}
    {a b : Int} {k : Nat} (ho : operandsF3 p s m1 m2 m3 = .ok ⟨a, b, s.pc + 4 + k⟩) (hr : t.status = .running)
    (h : binaryToMemory p f m1 m2 m3 s = .next t) : f a b = some (t.param k) := by
  rcases binaryToMemory_cases p f m1 m2 m3 s with ⟨r, hfault⟩ | ⟨o, v, ho', hv, hstored⟩
  · cases hfault.symm.trans h
    cases hr
  · cases hstored.symm.trans h
    obtain rfl : OperandsF3.mk a b (s.pc + 4 + k) = o := Except.ok.inj (ho.symm.trans ho')
    exact hv.trans (congrArg some (State.param_setCell_advance s 4 k v).symm)

/-- An INPUT that leaves the core `Running` did not fault, and the next cycle reads the value pulled. -/
theorem inputWith_value_read {p : Params} {m1 : Mode} {s t : State} {v : Int} {k : Nat}
    (hd : destAddress p s 1 m1 = some (s.pc + 2 + k)) (hv : pullAnswer p s.env = some v) (hr : t.status = .running)
    (h : inputWith p m1 s = .next t) : t.param k = v := by
  rcases inputWith_cases p m1 s with ⟨r, hfault⟩ | ⟨d, hd', ⟨-, hrefused⟩ | ⟨-, hstored⟩⟩
  · cases hfault.symm.trans h
    cases hr
  · cases hrefused.symm.trans h
  · cases hstored.symm.trans h
    obtain rfl : s.pc + 2 + k = d := Option.some.inj (hd.symm.trans (operandF1D_eq_ok.mp hd'))
    rw [hv]
    exact State.param_setCell_advance s.pulled 2 k v

/-! ### The statements -/

/-- Settles O42: by what a written memory and a loaded image read; a load puts the image at address 0. -/
theorem memoryLaws : Obligations.MemoryLaws := by
  refine ⟨Memory.read_write_self, fun m _ _ v h => Memory.read_write_ne m v h, fun image s t a h => ?_⟩
  obtain ⟨-, rfl⟩ := load_eq_some.mp h
  have hread := Memory.read_ofImage image 0 a
  rwa [Nat.zero_add] at hread

/-- Settles O43: a canonical memory is determined by its reads. -/
theorem canonicalMemoriesAreExtensional : Obligations.CanonicalMemoriesAreExtensional :=
  fun _ _ hm hn h => Memory.ext_read hm hn h

/-- Settles O46: an instruction that leaves the core `Running` stored its result, and `pc` has advanced to the cells that
its destination is counted from. -/
theorem storeIsSeenByTheNextFetch : Obligations.StoreIsSeenByTheNextFetch := by
  refine ⟨fun m1 m2 m3 s t a b k ha hb hd hr => ?_, fun m1 s t v k hd hv hr h => ?_⟩
  · have ho := operandsF3_of_table ha hb hd
    refine ⟨fun h => ?add, fun h => ?mul, fun h => ?lessThan, fun h => ?equals⟩
    case add =>
      obtain ⟨-, hsum⟩ := addChk_eq_some.mp (binaryToMemory_result_read ho hr h)
      exact State.param_and_word hsum.symm
    case mul =>
      obtain ⟨-, hproduct⟩ := mulChk_eq_some.mp (binaryToMemory_result_read ho hr h)
      exact State.param_and_word hproduct.symm
    case lessThan =>
      have hresult : some (lessThanResult a b) = some (t.param k) :=
        binaryToMemory_result_read (f := fun x y => some (lessThanResult x y)) ho hr h
      exact State.param_and_word (Option.some.inj hresult).symm
    case equals =>
      have hresult : some (equalsResult a b) = some (t.param k) :=
        binaryToMemory_result_read (f := fun x y => some (equalsResult x y)) ho hr h
      exact State.param_and_word (Option.some.inj hresult).symm
  · exact State.param_and_word (inputWith_value_read hd hv hr h)

/-- Settles O44: phase B looks at the sign of the address and at nothing else. -/
theorem memoryAccessFaultsExactlyBelowZero : Obligations.MemoryAccessFaultsExactlyBelowZero :=
  fun _ _ _ => ⟨fun hneg => ⟨if_pos hneg, if_pos hneg⟩,
    fun hnonneg => ⟨getSource_ok.mpr ⟨hnonneg, rfl⟩, checkDest_ok.mpr ⟨hnonneg, rfl⟩⟩⟩

end Sys2Proof.Machine
end

section
/-! PROOFS of the family of spec/30_encoding.md. First the opcode map: which row a word selects, and what the row's
instruction and its canonical word are. Then the digits that the decoder reads, how it answers every word, said once, and
what the cycle does with a word it rejects. -/

namespace Sys2Proof

/-! ### The rows of the opcode map -/

/-- Two rows with the same code are one row (R53). -/
theorem opcodeTable_code_inj {r r' : OpcodeRow} (hr : r ∈ opcodeTable) (hr' : r' ∈ opcodeTable)
    (h : r.code = r'.code) : r = r' :=
  List.inj_on_of_nodup_map (List.pairwise_map.mpr opcodeTable_pairwise) hr hr' h

/-- Every code of the map has at most two digits (R51, R53). -/
theorem opcodeTable_code_lt {r : OpcodeRow} (hr : r ∈ opcodeTable) : r.code < 100 := by
  revert r
  decide

section Build

variable {r : OpcodeRow} (hr : r ∈ opcodeTable) (a b c : Mode)
include hr

/-- A row makes instructions of its own opcode. -/
theorem build_opcode : (r.build a b c).opcode = r.code := by
  revert r
  simp [opcodeTable, Instr.opcode]

/-- The instructions of a row exist where the row does (R4, R59). -/
theorem build_available {p : Params} :
    (r.build a b c).available p = true ↔ p.relbaseEn = true ∨ r.needsRelbase = false := by
  revert r
  simp [opcodeTable, Instr.available]

/-- A row uses the modes of the parameters it has, in order, and ignores the others (R57). -/
theorem build_modes : (r.build a b c).params.map Prod.snd <+: [a, b, c] := by
  revert r
  simp [opcodeTable, Instr.params]

/-- The canonical word of a row's instruction: opcode and mode digits, those of absent parameters cut off (R57, R62). -/
theorem encode_build : encode (r.build a b c) =
    wordOf r.code a.digit b.digit c.digit % 10 ^ (2 + (r.build a b c).params.length) := by
  have ha := a.digit_lt_ten
  have hb := b.digit_lt_ten
  have hc := c.digit_lt_ten
  revert r
  simp only [opcodeTable, List.forall_mem_cons, List.not_mem_nil, false_implies, implies_true, and_true]
  refine ⟨?_, ?_, ?_, ?_, ?_, ?_, ?_, ?_, ?_, ?_⟩
  all_goals
    simp only [encode, wordOf, Instr.params, List.length]
    omega

end Build

/-- Every instruction is made by a row, and its canonical word has the row's code and the digits of three modes, those of
absent parameters 0 (R61, R62). -/
theorem exists_build (i : Instr) : ∃ r ∈ opcodeTable, ∃ a b c : Mode,
    i = r.build a b c ∧ encode i = wordOf r.code a.digit b.digit c.digit := by
  cases i with
  | add m1 m2 m3 => exact ⟨opcodeTable[0], List.getElem_mem _, m1, m2, m3, rfl, rfl⟩
  | mul m1 m2 m3 => exact ⟨opcodeTable[1], List.getElem_mem _, m1, m2, m3, rfl, rfl⟩
  | input m1 => exact ⟨opcodeTable[2], List.getElem_mem _, m1, .position, .position, rfl, rfl⟩
  | output m1 => exact ⟨opcodeTable[3], List.getElem_mem _, m1, .position, .position, rfl, rfl⟩
  | jumpIfTrue m1 m2 => exact ⟨opcodeTable[4], List.getElem_mem _, m1, m2, .position, rfl, rfl⟩
  | jumpIfFalse m1 m2 => exact ⟨opcodeTable[5], List.getElem_mem _, m1, m2, .position, rfl, rfl⟩
  | lessThan m1 m2 m3 => exact ⟨opcodeTable[6], List.getElem_mem _, m1, m2, m3, rfl, rfl⟩
  | equals m1 m2 m3 => exact ⟨opcodeTable[7], List.getElem_mem _, m1, m2, m3, rfl, rfl⟩
  | adjustBase m1 => exact ⟨opcodeTable[8], List.getElem_mem _, m1, .position, .position, rfl, rfl⟩
  | halt => exact ⟨opcodeTable[9], List.getElem_mem _, .position, .position, .position, rfl, rfl⟩

/-! ### The digits of a word -/

/-- The mode of parameter `i` has the digit of weight `10^(i+1)` (R51). -/
theorem modeOf_digit {w : Int} (hw : 0 ≤ w) (i : Nat) : ((modeOf w i).digit : Int) = w / 10 ^ (i + 1) % 10 := by
  rw [modeOf, Mode.digit_ofDigit (dig_lt_ten w hw (i + 1)), dig_of_nonneg hw]
  omega

/-- Equal digits are equal modes (R56). -/
theorem Mode.digit_inj {m n : Mode} (h : m.digit = n.digit) : m = n := by
  rw [← Mode.ofDigit_digit m, h, Mode.ofDigit_digit]

/-- A word of five digits is made of its opcode and its three modes (R51). -/
theorem wordOf_modeOf {w : Int} {o : Nat} (hw : 0 ≤ w) (hlt : w < 100000) (ho : (o : Int) = w % 100) :
    wordOf o (modeOf w 1).digit (modeOf w 2).digit (modeOf w 3).digit = w := by
  have h1 := modeOf_digit hw 1
  have h2 := modeOf_digit hw 2
  have h3 := modeOf_digit hw 3
  simp only [wordOf]
  omega

/-- The three modes of a word are read back (R51). -/
theorem modeOf_wordOf {o : Nat} (ho : o < 100) (a b c : Mode) :
    modeOf (wordOf o a.digit b.digit c.digit) 1 = a ∧ modeOf (wordOf o a.digit b.digit c.digit) 2 = b ∧
      modeOf (wordOf o a.digit b.digit c.digit) 3 = c := by
  have ha := a.digit_lt_ten
  have hb := b.digit_lt_ten
  have hc := c.digit_lt_ten
  have hread := modeOf_digit (w := wordOf o a.digit b.digit c.digit) (Int.natCast_nonneg _)
  have h1 := hread 1
  have h2 := hread 2
  have h3 := hread 3
  simp only [wordOf] at h1 h2 h3 ⊢
  exact ⟨Mode.digit_inj (by omega), Mode.digit_inj (by omega), Mode.digit_inj (by omega)⟩

/-- A parameter of the instruction a row makes has the mode at its place (R57). -/
theorem build_param_digit {r : OpcodeRow} (hr : r ∈ opcodeTable) {w : Int} (hw : 0 ≤ w) {k : Nat} {role : Role}
    {m : Mode} (h : (r.build (modeOf w 1) (modeOf w 2) (modeOf w 3)).params[k]? = some (role, m)) :
    (m.digit : Int) = w / 10 ^ (k + 2) % 10 := by
  have hmode : (List.map Prod.snd (r.build (modeOf w 1) (modeOf w 2) (modeOf w 3)).params)[k]? = some m := by
    simp [h]
  have hat : [modeOf w 1, modeOf w 2, modeOf w 3][k]? = some m := by
    obtain ⟨absent, hprefix⟩ := build_modes hr (modeOf w 1) (modeOf w 2) (modeOf w 3)
    obtain ⟨hlength, -⟩ := List.getElem?_eq_some_iff.mp hmode
    rw [← hprefix, List.getElem?_append_left hlength, hmode]
  match k, hat with
  | 0, hat => exact Option.some.inj hat ▸ modeOf_digit hw 1
  | 1, hat => exact Option.some.inj hat ▸ modeOf_digit hw 2
  | 2, hat => exact Option.some.inj hat ▸ modeOf_digit hw 3

end Sys2Proof

namespace Sys2Proof.Machine

/-! ### What the decoder answers -/

/-- A word `w >= 0` selects the row of its two low digits, where the machine has that row (R59, R64). -/
theorem opcodeRow_eq_some {p : Params} {w : Int} {r : OpcodeRow} (hw : 0 ≤ w) (hr : r ∈ opcodeTable)
    (hcode : (r.code : Int) = w % 100) (havail : p.relbaseEn = true ∨ r.needsRelbase = false) :
    opcodeRow p w = some r := by
  rcases opcodeRow_cases p hw with ⟨-, r', hr', hrow, hcode', -⟩ | ⟨-, hnone⟩
  · rw [hrow, opcodeTable_code_inj hr' hr (by omega)]
  · have hskip := List.find?_eq_none.mp hnone r hr
    simp [rem_of_nonneg hw, hcode, havail] at hskip

/-- A negative word is no opcode (R52). -/
theorem decode_of_neg {p : Params} {w : Int} (hw : w < 0) : decode p w = .error .unknownOpcode := if_pos hw

/-- The two ways to be an unknown opcode (R52, R59). -/
theorem decode_of_unknownOpcode {p : Params} {w : Int} (h : w < 0 ∨ ¬ knownOpcode p w) :
    decode p w = .error .unknownOpcode := by
  by_cases hw : w < 0
  · exact decode_of_neg hw
  · exact decode_of_not_knownOpcode (not_lt.mp hw) (h.resolve_left hw)

/-- A known opcode with a digit above the ten-thousands digit is rejected for that digit (R58). -/
theorem decode_of_highDigits {p : Params} {w : Int} (hk : knownOpcode p w) (hw : 100000 ≤ w) :
    decode p w = .error .highDigits := by
  have h0 : 0 ≤ w := by omega
  rcases opcodeRow_cases p h0 with ⟨-, r, -, hrow, -⟩ | ⟨hn, -⟩
  · have hquot : quot w 100000 ≠ 0 := by
      rw [quot_of_nonneg h0]
      omega
    simp [decode, hrow, hquot, not_lt.mpr h0]
  · exact absurd hk hn

/-- A word of five digits with a row's code decodes to what the row makes of its three modes (R51, R61). -/
theorem decode_of_row {p : Params} {w : Int} {r : OpcodeRow} (hw : 0 ≤ w) (hlt : w < 100000) (hr : r ∈ opcodeTable)
    (hcode : (r.code : Int) = w % 100) (havail : p.relbaseEn = true ∨ r.needsRelbase = false) :
    decode p w = .ok (r.build (modeOf w 1) (modeOf w 2) (modeOf w 3)) := by
  have hrow := opcodeRow_eq_some hw hr hcode havail
  have hquot : quot w 100000 = 0 := by
    rw [quot_of_nonneg hw]
    omega
  simp [decode, hrow, hquot, not_lt.mpr hw]

/-- All the instructions that are decoded: those of the row of a known opcode, from words of five digits (R61). -/
theorem decode_ok {p : Params} {w : Int} {i : Instr} (h : decode p w = .ok i) :
    0 ≤ w ∧ w < 100000 ∧ ∃ r ∈ opcodeTable, (r.code : Int) = w % 100 ∧
      (p.relbaseEn = true ∨ r.needsRelbase = false) ∧ i = r.build (modeOf w 1) (modeOf w 2) (modeOf w 3) := by
  by_cases hu : w < 0 ∨ ¬ knownOpcode p w
  · simp [decode_of_unknownOpcode hu] at h
  obtain ⟨hneg, hk⟩ := not_or.mp hu
  have hw : 0 ≤ w := not_lt.mp hneg
  rcases opcodeRow_cases p hw with ⟨hk, r, hr, -, hcode, havail⟩ | ⟨hn, -⟩
  · by_cases hhigh : 100000 ≤ w
    · simp [decode_of_highDigits hk hhigh] at h
    · have hlt : w < 100000 := not_le.mp hhigh
      exact ⟨hw, hlt, r, hr, hcode, havail, Except.ok.inj (h.symm.trans (decode_of_row hw hlt hr hcode havail))⟩
  · exact absurd hn hk

/-! ### What the cycle does with a rejected word -/

/-- A `Running` core that fetches an unknown opcode takes that fault (R52, R59, R73). -/
theorem stepWith_unknownOpcode {p : Params} {s : State} (hr : s.status = .running) (h0 : 0 ≤ s.pc)
    (hl : s.pc < (s.len : Int)) (hd : decode p s.word = .error .unknownOpcode) :
    stepWith p s = .next (s.raise s.unknownOpcodeRecord) := by
  have hpc : s.pcOutOfRange = false := State.pcOutOfRange_eq_false.mpr ⟨h0, hl⟩
  simp [stepWith, tickWith_running p _ hr, cycleWith, hpc, hd]

/-- A `Running` core that fetches a word with high digits takes that fault (R58, R73). -/
theorem stepWith_highDigits {p : Params} {s : State} (hr : s.status = .running) (h0 : 0 ≤ s.pc)
    (hl : s.pc < (s.len : Int)) (hd : decode p s.word = .error .highDigits) :
    stepWith p s = .next (s.raise s.highDigitsRecord) := by
  have hpc : s.pcOutOfRange = false := State.pcOutOfRange_eq_false.mpr ⟨h0, hl⟩
  simp [stepWith, tickWith_running p _ hr, cycleWith, hpc, hd]

/-! ### The statements -/

/-- Settles O2: the canonical word has the code of the instruction's row and the digits of its modes, and these are what
the decoder reads. -/
theorem decodeOfEncodeIsTheInstruction : Obligations.DecodeOfEncodeIsTheInstruction := by
  intro p i havail
  obtain ⟨r, hr, a, b, c, rfl, hword⟩ := exists_build i
  have ho : r.code < 100 := opcodeTable_code_lt hr
  obtain ⟨hnonneg, hlt, hcode⟩ :=
    Laws.WordShape.of_digits ho a.digit_lt_ten b.digit_lt_ten c.digit_lt_ten
  obtain ⟨ha, hb, hc⟩ := modeOf_wordOf ho a b c
  rw [hword, decode_of_row hnonneg hlt hr hcode.symm ((build_available hr a b c).mp havail), ha, hb, hc]

/-- Settles O3: a word that decodes is made of its row's code and its three modes, and the canonical word of what the row
builds cuts off the digits of the absent ones. -/
theorem encodeOfDecodeKeepsTheUsedDigits : Obligations.EncodeOfDecodeKeepsTheUsedDigits := by
  intro p w i h
  obtain ⟨hw, hlt, r, hr, hcode, havail, rfl⟩ := decode_ok h
  refine ⟨hw, hlt, (build_available hr _ _ _).mpr havail, ?_⟩
  rw [encode_build hr, wordOf_modeOf hw hlt hcode]

/-- Settles O4: the decoder's answer in each of the four cases; in the last, the row of the opcode takes its modes from
the digits. -/
theorem decoderReadsTheDecimalDigits : Obligations.DecoderReadsTheDecimalDigits := by
  refine fun p w => ⟨decode_of_neg, decode_of_not_knownOpcode, fun _ hk => decode_of_highDigits hk,
    fun hw hk hlt => ?_⟩
  rcases opcodeRow_cases p hw with ⟨-, r, hr, -, hcode, havail⟩ | ⟨hn, -⟩
  · refine ⟨_, decode_of_row hw hlt hr hcode havail, ?_, fun _ _ _ hparam => build_param_digit hr hw hparam⟩
    rw [build_opcode hr, hcode]
  · exact absurd hk hn

/-- Settles O7: such a word decodes to no instruction, and the cycle raises the fault of that name. -/
theorem unknownOpcodeFaults : Obligations.UnknownOpcodeFaults :=
  fun _ _ hr h0 hl h => stepWith_unknownOpcode hr h0 hl (decode_of_unknownOpcode (h.imp_right not_or.mpr))

/-- Settles O8: such a word is rejected for its high digits, and the cycle raises the fault of that name. -/
theorem highDigitsFault : Obligations.HighDigitsFault :=
  fun _ _ hr h0 hl hw hk => stepWith_highDigits hr h0 hl (decode_of_highDigits hk hw)

/-- Settles O1: each word is decoded by evaluating the decoder. -/
theorem specWordsDecode : Obligations.SpecWordsDecode :=
  ⟨rfl, rfl, rfl, rfl, rfl, rfl, rfl, rfl, rfl, rfl, rfl, rfl⟩

end Sys2Proof.Machine
end

section
/-! PROOFS of the family of spec/40_cycle_and_operands.md. First the shapes of the instructions, and with them what
every instruction does: it takes the fault that the table of R135 gives its parameters, it answers a next state, and it
answers alike in states that differ in `len` and in the environment alone. Then the jump to itself, and the placing of a
table word. -/

namespace Sys2Proof.Machine

/-! ### The shapes of the instructions -/

/-- The ten instructions have six shapes: format F3, the jumps, and the four that stand alone (R53, R55). -/
theorem execWith_shapes (p : Params) (i : Instr) :
    (∃ f m1 m2 m3, i.params = [(.src, m1), (.src, m2), (.dst, m3)] ∧ execWith p i = binaryToMemory p f m1 m2 m3) ∨
      (∃ taken m1 m2, i.params = [(.src, m1), (.src, m2)] ∧ execWith p i = jumpWhen p taken m1 m2) ∨
      (∃ m, i = .input m) ∨ (∃ m, i = .output m) ∨ (∃ m, i = .adjustBase m) ∨ i = .halt := by
  cases i with
  | add m1 m2 m3 => exact .inl ⟨_, m1, m2, m3, rfl, rfl⟩
  | mul m1 m2 m3 => exact .inl ⟨_, m1, m2, m3, rfl, rfl⟩
  | lessThan m1 m2 m3 => exact .inl ⟨fun a b => some (lessThanResult a b), m1, m2, m3, rfl, rfl⟩
  | equals m1 m2 m3 => exact .inl ⟨fun a b => some (equalsResult a b), m1, m2, m3, rfl, rfl⟩
  | jumpIfTrue m1 m2 => exact .inr (.inl ⟨_, m1, m2, rfl, rfl⟩)
  | jumpIfFalse m1 m2 => exact .inr (.inl ⟨fun v => !isNonzero v, m1, m2, rfl, rfl⟩)
  | input m => exact .inr (.inr (.inl ⟨m, rfl⟩))
  | output m => exact .inr (.inr (.inr (.inl ⟨m, rfl⟩)))
  | adjustBase m => exact .inr (.inr (.inr (.inr (.inl ⟨m, rfl⟩))))
  | halt => exact .inr (.inr (.inr (.inr (.inr rfl))))

/-! ### An instruction takes the fault of its operands -/

/-- The first entry of a numbered list for which there is an answer gives it. -/
theorem findSome?_zipIdx {α β : Type} {f : α × Nat → Option β} {l : List α} {k n : Nat} {a : α} {b : β}
    (ha : l[n]? = some a) (hb : f (a, k + n) = some b)
    (hbefore : ∀ j x, j < n → l[j]? = some x → f (x, k + j) = none) : (l.zipIdx k).findSome? f = some b := by
  induction l generalizing k n with
  | nil => simp at ha
  | cons y rest ih =>
    cases n with
    | zero =>
      obtain rfl : y = a := by simpa using ha
      have hhead : f (y, k) = some b := hb
      simp [hhead]
    | succ n =>
      have hhead : f (y, k) = none := hbefore 0 y (Nat.succ_pos n) rfl
      rw [List.zipIdx_cons, List.findSome?_cons_of_isNone (by simp [hhead])]
      refine ih (by simpa using ha) (by rwa [Nat.add_assoc, Nat.add_comm 1]) fun j x hj hx => ?_
      rw [Nat.add_assoc, Nat.add_comm 1]
      exact hbefore (j + 1) x (Nat.succ_lt_succ hj) (by simpa using hx)

/-- The fault of phase A is that of the lowest-numbered parameter that does not resolve; phase B is not reached
(R74). -/
theorem operandFault_of_resolveFault {p : Params} {s : State} {params : List (Role × Mode)} {n : Nat} {role : Role}
    {m : Mode} {r : FaultRecord} (hn : params[n]? = some (role, m)) (hr : resolveFault p s role (n + 1) m = some r)
    (hbefore : ∀ j role' m', j < n → params[j]? = some (role', m') → resolveFault p s role' (j + 1) m' = none) :
    operandFault p s params = some r := by
  have hfirst : ((params.zipIdx 1).findSome? fun e => resolveFault p s e.1.1 e.2 e.1.2) = some r := by
    refine findSome?_zipIdx hn (by rwa [Nat.add_comm 1]) fun j x hj hx => ?_
    rw [Nat.add_comm 1]
    exact hbefore j x.1 x.2 hj hx
  rw [operandFault, hfirst, Option.some_or]

/-- An instruction that exists takes the first fault of its operands and does nothing else (R126, R135). -/
theorem execWith_of_operandFault {p : Params} {i : Instr} {s : State} {r : FaultRecord} (ha : i.available p = true)
    (h : operandFault p s i.params = some r) : execWith p i s = .next (s.raise r) := by
  have source : ∀ m k, operandFault p s [(.src, m)] = some r →
      withOperands s (operandF1S p s m) k = .next (s.raise r) := fun m k h => by
    simp [withOperands, operandF1S_eq, h]
  rcases execWith_shapes p i with ⟨f, m1, m2, m3, hparams, hx⟩ | ⟨taken, m1, m2, hparams, hx⟩ | ⟨m, rfl⟩ | ⟨m, rfl⟩ |
    ⟨m, rfl⟩ | rfl
  · rw [hparams] at h
    simp [hx, binaryToMemory, withOperands, operandsF3_eq, h]
  · rw [hparams] at h
    simp [hx, jumpWhen, withOperands, operandsF2_eq, h]
  · have hdest : operandFault p s [(.dst, m)] = some r := h
    simp [execWith, inputWith, withOperands, operandF1D_eq, hdest]
  · exact source m _ h
  · exact (if_pos ha).trans (source m _ h)
  · simp [operandFault, Instr.params] at h

/-- Every instruction exists in this hardware (R4). -/
theorem available_hardware (i : Instr) : i.available Config.hardware = true := by
  cases i <;> rfl

/-- An instruction of this hardware takes the fault of the first parameter that does not resolve. -/
theorem exec_of_resolveFault {i : Instr} {s : State} {n : Nat} {role : Role} {m : Mode} {r : FaultRecord}
    (hn : i.params[n]? = some (role, m)) (hr : resolveFault Config.hardware s role (n + 1) m = some r)
    (hbefore : ∀ j role' m', j < n → i.params[j]? = some (role', m') →
      resolveFault Config.hardware s role' (j + 1) m' = none) : exec i s = .next (s.raise r) := by
  rw [exec_eq_execWith]
  exact execWith_of_operandFault (available_hardware i) (operandFault_of_resolveFault hn hr hbefore)

/-! ### What an instruction answers -/

/-- Every instruction answers a next state, but for an INPUT that is offered a value outside the cell range (U13). -/
theorem execWith_answers (p : Params) (i : Instr) (s : State) :
    (∃ t, execWith p i s = .next t) ∨
      (execWith p i s = .refused .inputOutOfRange ∧ (∃ m, i = .input m) ∧ s.env.offersOutOfRange p = true) := by
  rcases execWith_shapes p i with ⟨f, m1, m2, m3, -, hx⟩ | ⟨taken, m1, m2, -, hx⟩ | ⟨m, rfl⟩ | ⟨m, rfl⟩ | ⟨m, rfl⟩ | rfl
  · rw [hx]
    rcases binaryToMemory_cases p f m1 m2 m3 s with ⟨_, h⟩ | ⟨_, _, -, -, h⟩ <;> exact .inl ⟨_, h⟩
  · rw [hx]
    rcases jumpWhen_cases p taken m1 m2 s with ⟨_, h⟩ | ⟨_, -, h⟩ <;> exact .inl ⟨_, h⟩
  · rcases inputWith_cases p m s with ⟨_, h⟩ | ⟨_, -, ⟨hoffer, h⟩ | ⟨-, h⟩⟩
    · exact .inl ⟨_, h⟩
    · exact .inr ⟨h, ⟨m, rfl⟩, hoffer⟩
    · exact .inl ⟨_, h⟩
  · rcases outputWith_cases p m s with ⟨_, h⟩ | ⟨_, -, h⟩ <;> exact .inl ⟨_, h⟩
  · rcases adjustBaseWith_cases p m s with ⟨_, h⟩ | ⟨_, -, -, -, h⟩ <;> exact .inl ⟨_, h⟩
  · exact .inl ⟨_, rfl⟩

/-! ### What an instruction does not look at

Of the environment an instruction sees the answer to its own port call, and of `len` nothing (R84, R85). -/

/-- Whether an answer is refused depends on the answer alone. -/
theorem offersOutOfRange_congr {e e' : Env} (h : pullAnswer p e = pullAnswer p e') :
    e.offersOutOfRange p = e'.offersOutOfRange p := by
  rw [Bool.eq_iff_iff, offersOutOfRange_iff, offersOutOfRange_iff, h]

/-- Where `a` answers a next state, so does `b`: the same but for `len`, which is `n` there, and for the environment,
which is related by `E`. -/
def Follows (n : Nat) (E : Env → Env → Prop) (a b : Answer) : Prop :=
  ∀ t, a = .next t → ∃ e, b = .next { t with len := n, env := e } ∧ E t.env e

section Follows

variable {p : Params} {s : State} {n : Nat} {e : Env} {E : Env → Env → Prop}

theorem follows_next (hE : E s.env e) : Follows n E (.next s) (.next { s with len := n, env := e }) := by
  rintro t ⟨⟩
  exact ⟨e, rfl, hE⟩

/-- The two differ only in what is done with the operands. -/
theorem follows_withOperands {α : Type} {ops : Except FaultRecord α} {k k' : α → Answer} (hE : E s.env e)
    (hk : ∀ o, Follows n E (k o) (k' o)) :
    Follows n E (withOperands s ops k) (withOperands { s with len := n, env := e } ops k') := by
  cases ops with
  | error r => exact follows_next (s := s.raise r) hE
  | ok o => exact hk o

theorem follows_binaryToMemory (hE : E s.env e) (f : Int → Int → Option Int) (m1 m2 m3 : Mode) :
    Follows n E (binaryToMemory p f m1 m2 m3 s) (binaryToMemory p f m1 m2 m3 { s with len := n, env := e }) := by
  refine follows_withOperands hE fun o => ?_
  cases f o.v1 o.v2 with
  | none => exact follows_next (s := s.raise s.operateOverflowRecord) hE
  | some v => exact follows_next (s := (s.setCell o.dest v).advance 4) hE

theorem follows_jumpWhen (hE : E s.env e) (taken : Int → Bool) (m1 m2 : Mode) :
    Follows n E (jumpWhen p taken m1 m2 s) (jumpWhen p taken m1 m2 { s with len := n, env := e }) := by
  refine follows_withOperands hE fun o => ?_
  cases taken o.v1 with
  | true => exact follows_next (s := s.jumpTo o.v2) hE
  | false => exact follows_next (s := s.advance 3) hE

theorem follows_inputWith (hE : E s.env e) (ha : pullAnswer p s.env = pullAnswer p e)
    (hpulled : E s.env.pulled e.pulled) (m : Mode) :
    Follows n E (inputWith p m s) (inputWith p m { s with len := n, env := e }) := by
  refine follows_withOperands hE fun d => ?_
  simp only [← ha, ← offersOutOfRange_congr ha]
  split
  · rintro t ⟨⟩
  · cases pullAnswer p s.env with
    | none => exact follows_next (s := s.pulled.setStatus .blockedOnInput) hpulled
    | some v => exact follows_next (s := (s.pulled.setCell d v).advance 2) hpulled

theorem follows_outputWith (hE : E s.env e) (ha : stopAnswer s.env = stopAnswer e)
    (hpushed : ∀ v, E (s.env.pushed v) (e.pushed v)) (m : Mode) :
    Follows n E (outputWith p m s) (outputWith p m { s with len := n, env := e }) := by
  refine follows_withOperands hE fun v => ?_
  simp only [← ha]
  exact follows_next (s := finishOutput (s.pushed v) (stopAnswer s.env)) (hpushed v)

theorem follows_adjustBaseWith (hE : E s.env e) (m : Mode) :
    Follows n E (adjustBaseWith p m s) (adjustBaseWith p m { s with len := n, env := e }) := by
  unfold adjustBaseWith
  split
  · refine follows_withOperands hE fun v => ?_
    cases addChk p s.rb v with
    | none => exact follows_next (s := s.raise s.operateOverflowRecord) hE
    | some r => exact follows_next (s := (s.setRb r).advance 2) hE
  · exact follows_next (s := s.raise s.unknownOpcodeRecord) hE

/-- An instruction answers alike under another `len` and another environment that gives the answer it asks for. -/
theorem follows_execWith {i : Instr} (hE : E s.env e)
    (hpull : ∀ m, i = .input m → pullAnswer p s.env = pullAnswer p e ∧ E s.env.pulled e.pulled)
    (hpush : ∀ m, i = .output m → stopAnswer s.env = stopAnswer e ∧ ∀ v, E (s.env.pushed v) (e.pushed v)) :
    Follows n E (execWith p i s) (execWith p i { s with len := n, env := e }) := by
  rcases execWith_shapes p i with ⟨f, m1, m2, m3, -, hx⟩ | ⟨taken, m1, m2, -, hx⟩ | ⟨m, rfl⟩ | ⟨m, rfl⟩ | ⟨m, rfl⟩ | rfl
  · rw [hx]
    exact follows_binaryToMemory hE f m1 m2 m3
  · rw [hx]
    exact follows_jumpWhen hE taken m1 m2
  · obtain ⟨ha, hpulled⟩ := hpull m rfl
    exact follows_inputWith hE ha hpulled m
  · obtain ⟨ha, hpushed⟩ := hpush m rfl
    exact follows_outputWith hE ha hpushed m
  · exact follows_adjustBaseWith hE m
  · exact follows_next (s := s.setStatus .haltedNormally) hE

/-- Steps 1 and 2 of the cycle look at the core alone. -/
theorem follows_cycleWith {execute : Instr → State → Answer} (hE : E s.env e)
    (hx : ∀ i, decode p s.word = .ok i → Follows s.len E (execute i s) (execute i { s with env := e })) :
    Follows s.len E (cycleWith p execute s) (cycleWith p execute { s with env := e }) := by
  have hpc : State.pcOutOfRange { s with env := e } = s.pcOutOfRange := rfl
  have hword : State.word { s with env := e } = s.word := rfl
  simp only [cycleWith, hpc, hword]
  split
  · exact follows_next (s := s.raise s.pcRangeRecord) hE
  · cases hd : decode p s.word with
    | ok i => exact hx i hd
    | error x =>
      cases x with
      | unknownOpcode => exact follows_next (s := s.raise s.unknownOpcodeRecord) hE
      | highDigits => exact follows_next (s := s.raise s.highDigitsRecord) hE

/-- Whether the core executes a cycle at all is seen from its status. -/
theorem follows_tickWith {execute : Instr → State → Answer} (hE : E s.env e)
    (hx : ∀ i, decode p s.word = .ok i → Follows s.len E (execute i s) (execute i { s with env := e })) :
    Follows s.len E (tickWith p execute s) (tickWith p execute { s with env := e }) := by
  unfold tickWith
  cases s.status with
  | running => exact follows_cycleWith hE hx
  | haltedNormally => exact follows_next hE
  | blockedOnInput => exact follows_next hE
  | outputRequestedStop => exact follows_next hE
  | faulted => rintro t ⟨⟩

end Follows

/-! ### A jump to itself -/

/-- In mode 1 the operand is the parameter word (R76). -/
theorem sourceValue_immediate {p : Params} {s : State} (h0 : 0 ≤ s.pc) (i : Nat) :
    sourceValue p s i .immediate = some (s.param i) := by
  have hnonneg : 0 ≤ s.pc + i := by omega
  simp [sourceValue, effectiveAddress, hnonneg, State.param]

/-- Phases A and B of two sources succeed with what the table gives each parameter (R80). -/
theorem operandsF2_of_table {p : Params} {s : State} {m1 m2 : Mode} {a b : Int}
    (ha : sourceValue p s 1 m1 = some a) (hb : sourceValue p s 2 m2 = some b) :
    operandsF2 p s m1 m2 = .ok ⟨a, b⟩ := by
  obtain ⟨hres1, hacc1, rfl⟩ := sourceValue_eq_some.mp ha
  obtain ⟨hres2, hacc2, rfl⟩ := sourceValue_eq_some.mp hb
  have hnone : operandFault p s [(.src, m1), (.src, m2)] = none := by
    simp [operandFault, hres1, hacc1, hres2, hacc2]
  rw [operandsF2_eq, hnone]

/-- The word 1105 is a JUMP-IF-TRUE with both parameters in mode 1, whatever the parameters of the core. -/
theorem decode_1105 (p : Params) : decode p 1105 = .ok (.jumpIfTrue .immediate .immediate) :=
  decode_of_row (r := opcodeTable[4]) (by decide) (by decide) (List.getElem_mem _) (by decide) (.inr rfl)

/-- A jump to `pc` whose condition holds leaves the state as it is (R100). -/
theorem jumpWhen_to_itself {p : Params} {s : State} {taken : Int → Bool} (h0 : 0 ≤ s.pc)
    (htaken : taken (s.param 1) = true) (htarget : s.param 2 = s.pc) :
    jumpWhen p taken .immediate .immediate s = .next s := by
  have hops : operandsF2 p s .immediate .immediate = .ok ⟨s.param 1, s.param 2⟩ :=
    operandsF2_of_table (sourceValue_immediate h0 1) (sourceValue_immediate h0 2)
  simp [jumpWhen, withOperands, hops, htaken, htarget, State.jumpTo]

/-- A run whose cycle leads back to where it started never returns (R83, R149). -/
theorem runsForever_of_fixed {p : Params} {s : State} (hr : s.status = .running) (h : stepWith p s = .next s) :
    RunsForever p s := by
  intro n
  refine ⟨s, ?_, hr⟩
  induction n with
  | zero => rfl
  | succ n ih => rw [runFor_running hr h, ih]

/-! ### The placing of a table word -/

theorem State.cell_setCell_self (s : State) (a v : Int) : (s.setCell a v).cell a = v :=
  Memory.read_write_self s.mem a.toNat v

/-- Cells written from `a` upward leave the cells below `a`. -/
theorem State.cell_setCells_below {a b : Int} (h0 : 0 ≤ b) (hb : b < a) (cells : List Int) (s : State) :
    (s.setCells a cells).cell b = s.cell b := by
  induction cells generalizing a s with
  | nil => rfl
  | cons v rest ih =>
    have hne : b.toNat ≠ a.toNat := by omega
    exact (ih (by omega) (s.setCell a v)).trans (Memory.read_write_ne s.mem v hne)

/-- The first of the cells written from `a` upward is read at `a`. -/
theorem State.cell_setCells_first {a : Int} (h0 : 0 ≤ a) (v : Int) (rest : List Int) (s : State) :
    (s.setCells a (v :: rest)).cell a = v :=
  (State.cell_setCells_below h0 (by omega) rest (s.setCell a v)).trans (s.cell_setCell_self a v)

theorem State.placeAt_nonneg (p : Params) (s : State) : 0 ≤ s.placeAt p := by
  unfold State.placeAt
  split
  next h => exact h.1
  next => exact le_rfl

/-- The placed cells are inside the image, and the first of them is the instruction word of the next cycle. -/
theorem State.placeCells_fetches (p : Params) (s : State) (v : Int) (rest : List Int) :
    (s.placeCells p (v :: rest)).status = .running ∧ 0 ≤ (s.placeCells p (v :: rest)).pc ∧
      (s.placeCells p (v :: rest)).pc < ((s.placeCells p (v :: rest)).len : Int) ∧
      (s.placeCells p (v :: rest)).word = v := by
  have h0 : 0 ≤ s.placeAt p := s.placeAt_nonneg p
  have hlen : s.placeAt p < (max s.len ((s.placeAt p).toNat + (v :: rest).length) : Nat) := by
    have : 0 < (v :: rest).length := List.length_pos_of_ne_nil (List.cons_ne_nil v rest)
    omega
  exact ⟨rfl, h0, hlen, State.cell_setCells_first h0 v rest s⟩

/-- A table word is decoded from its first cell (R73). -/
theorem decodeTableWord_eq_some {nbits w : Nat} {i : Instr} (h : decodeTableWord nbits w = some i) :
    decode Config.hardware (cellOfBits Config.hardware (w % 2 ^ nbits)) = .ok i := by
  unfold decodeTableWord at h
  split at h
  next j hj => exact hj.trans (congrArg _ (Option.some.inj h))
  next => cases h

/-! ### The statements -/

/-- Settles O10: a fault of steps 1 and 2 is a next state, and of the instructions only an INPUT can be refused. -/
theorem runningCoreAlwaysAnswers : Obligations.RunningCoreAlwaysAnswers := by
  intro p s hr
  rw [stepWith, tickWith_running p _ hr]
  rcases cycleWith_cases p (execWith p) s with ⟨r, hfault⟩ | ⟨i, -, hd, hx⟩
  · exact .inl ⟨_, hfault⟩
  · rw [hx]
    rcases execWith_answers p i s with hnext | ⟨hrefused, ⟨m, rfl⟩, hoffer⟩
    · exact .inl hnext
    · exact .inr ⟨hrefused, ⟨m, hd⟩, offersOutOfRange_iff.mp hoffer⟩

/-- Settles O23: the table of the faults gives every mode digit from 3 on a bad mode. -/
theorem badModeFaults : Obligations.BadModeFaults :=
  fun _ s n _ k hn hbefore => exec_of_resolveFault (r := s.badModeRecord (n + 1) (.unrecognised k)) hn rfl hbefore

/-- Settles O24: the table of the faults gives a destination in mode 1 an immediate destination. -/
theorem immediateDestinationFaults : Obligations.ImmediateDestinationFaults :=
  fun _ s n hn hbefore => exec_of_resolveFault (r := s.immediateDestinationRecord (n + 1)) hn rfl hbefore

/-- Settles O25: this hardware has mode 2, and the table of the faults gives it an overflow outside `Int`. -/
theorem relativeAddressOverflowFaults : Obligations.RelativeAddressOverflowFaults :=
  fun _ s n _ hn hbefore hsum =>
    exec_of_resolveFault (r := s.resolveOverflowRecord (n + 1)) hn (if_neg hsum) hbefore

/-- Settles O47: the answers follow each other with the environments equal. -/
theorem instructionsDoNotLookAtLen : Obligations.InstructionsDoNotLookAtLen := by
  intro i s t n h
  rw [exec_eq_execWith] at h ⊢
  have hfollows : Follows n (· = ·) (execWith Config.hardware i s)
      (execWith Config.hardware i { s with len := n, env := s.env }) :=
    follows_execWith rfl (fun _ _ => ⟨rfl, rfl⟩) (fun _ _ => ⟨rfl, fun _ => rfl⟩)
  obtain ⟨e, hnext, rfl⟩ := hfollows t h
  exact hnext

/-- Settles O48: the answers follow each other with the environments unrelated, but for the answer to the port call. -/
theorem cycleIsAFunctionOfCoreAndAnswers : Obligations.CycleIsAFunctionOfCoreAndAnswers := by
  intro p s s' t hcore hpull hpush h
  obtain ⟨core, e⟩ := s'
  obtain rfl : s.toCoreState = core := hcore
  have hfollows : Follows s.len (fun _ _ => True) (stepWith p s) (stepWith p { s with env := e }) :=
    follows_tickWith trivial fun i hd => follows_execWith trivial
      (fun m hi => ⟨hpull ⟨m, hi ▸ hd⟩, trivial⟩) (fun m hi => ⟨hpush ⟨m, hi ▸ hd⟩, fun _ => trivial⟩)
  obtain ⟨e', hnext, -⟩ := hfollows t h
  refine ⟨_, hnext, ?_⟩
  rw [← stepWith_len h]

/-- Settles O58: the placed core is `Running`, and the word it fetches is the first cell, which the table word decodes
from. -/
theorem placedTableWordRunsNext : Obligations.PlacedTableWordRunsNext := by
  intro s nbits w i h
  obtain ⟨hr, h0, hl, hword⟩ := State.placeCells_fetches Config.hardware s
    (cellOfBits Config.hardware (w % 2 ^ nbits)) (tableCells Config.hardware nbits w).tail
  rw [step_eq_stepWith, exec_eq_execWith]
  exact stepWith_decoded hr h0 hl (hword ▸ decodeTableWord_eq_some h)

/-- Settles O5: the step is the step with this hardware's parameters, whose cycle hands the decoded instruction on. -/
theorem stepRunsTheDecodedInstruction : Obligations.StepRunsTheDecodedInstruction := by
  intro s i hr h0 hl hd
  rw [step_eq_stepWith, exec_eq_execWith]
  exact stepWith_decoded hr h0 hl hd

/-- Settles O55: the cycle leads back to the same state. -/
theorem jumpToItselfRunsForever : Obligations.JumpToItselfRunsForever := by
  intro p s hr h0 hl hword hcond htarget
  have hd : decode p s.word = .ok (.jumpIfTrue .immediate .immediate) := hword ▸ decode_1105 p
  have htaken : isNonzero (s.param 1) = true := by rw [hcond]; rfl
  refine runsForever_of_fixed hr ?_
  rw [stepWith_decoded hr h0 hl hd]
  exact jumpWhen_to_itself h0 htaken htarget

end Sys2Proof.Machine
end

section
/-! PROOFS of the family of spec/41_arithmetic.md. First what every F3 instruction does: the word it is decoded from,
what it answers when the table of the modes gives its operands, and its frame. ADD and MUL are then these rules at the
two operations of checked arithmetic. -/

namespace Sys2Proof.Machine

/-! ### Encoding -/

/-- The word of four digit fields, as a sum of integers (R51). -/
theorem wordOf_eq_sum (o a b c : Nat) : wordOf o a b c = o + 100 * a + 1000 * b + 10000 * c := by
  simp [wordOf]

/-- The canonical word of an instruction of this hardware decodes to it, however the word is written. -/
theorem decode_of_encode_eq {i : Instr} {w : Int} (h : encode i = w) : decode Config.hardware w = .ok i :=
  h ▸ decodeOfEncodeIsTheInstruction Config.hardware i (available_hardware i)

/-! ### Meaning -/

/-- An F3 instruction whose operands the table of the modes gives comes to the result of its operation (R74). -/
theorem binaryToMemory_of_table {p : Params} {f : Int → Int → Option Int} {s : State} {m1 m2 m3 : Mode} {a b d : Int}
    (ha : sourceValue p s 1 m1 = some a) (hb : sourceValue p s 2 m2 = some b)
    (hd : destAddress p s 3 m3 = some d) : binaryToMemory p f m1 m2 m3 s = storeResult s d (f a b) := by
  rw [binaryToMemory, operandsF3_of_table ha hb hd]
  rfl

/-- An F3 instruction over a checked operation: a result in `Int` is stored exactly and `pc` advances by 4, one outside
is an `OverflowError` (R6, R92). -/
theorem binaryToMemory_checked {p : Params} (g : Int → Int → Int) {s : State} {m1 m2 m3 : Mode} {a b d : Int}
    (ha : sourceValue p s 1 m1 = some a) (hb : sourceValue p s 2 m2 = some b)
    (hd : destAddress p s 3 m3 = some d) :
    (p.InRange (g a b) → binaryToMemory p (fun x y => checked p (g x y)) m1 m2 m3 s =
        .next { s with mem := s.mem.write d.toNat (g a b), pc := s.pc + 4 }) ∧
      (¬ p.InRange (g a b) → binaryToMemory p (fun x y => checked p (g x y)) m1 m2 m3 s =
        .next (s.raise s.operateOverflowRecord)) := by
  rw [binaryToMemory_of_table ha hb hd]
  refine ⟨fun hin => ?_, fun hout => ?_⟩
  · rw [checked_eq_some.mpr ⟨hin, rfl⟩]
    rfl
  · rw [checked_eq_none.mpr hout]
    rfl

/-- An instruction of this hardware takes the first fault of its operands (R126, R135). -/
theorem exec_of_operandFault {i : Instr} {s : State} {r : FaultRecord}
    (h : operandFault Config.hardware s i.params = some r) : exec i s = .next (s.raise r) := by
  rw [exec_eq_execWith]
  exact execWith_of_operandFault (available_hardware i) h

/-! ### Frame -/

/-- The four instructions that store a result are F3 instructions over an operation. -/
theorem exec_storing {m1 m2 m3 : Mode} {i : Instr}
    (hi : i ∈ [Instr.add m1 m2 m3, .mul m1 m2 m3, .lessThan m1 m2 m3, .equals m1 m2 m3]) :
    ∃ f, exec i = binaryToMemory Config.hardware f m1 m2 m3 := by
  simp only [List.mem_cons, List.not_mem_nil, or_false] at hi
  rcases hi with rfl | rfl | rfl | rfl
  · exact ⟨addChk Config.hardware, rfl⟩
  · exact ⟨mulChk Config.hardware, rfl⟩
  · exact ⟨fun a b => some (lessThanResult a b), rfl⟩
  · exact ⟨fun a b => some (equalsResult a b), rfl⟩

/-- All the next states of an F3 instruction: a fault, or some value in the cell at the resolved destination and
`pc + 4`. -/
theorem binaryToMemory_next {p : Params} {f : Int → Int → Option Int} {m1 m2 m3 : Mode} {s t : State}
    (h : binaryToMemory p f m1 m2 m3 s = .next t) :
    (∃ r, t = s.raise r) ∨ ∃ d v, resolve p s .dst 3 m3 = .ok d ∧ t = (s.setCell d v).advance 4 := by
  rcases binaryToMemory_cases p f m1 m2 m3 s with ⟨r, hfault⟩ | ⟨o, v, ho, -, hstored⟩
  · exact .inl ⟨r, Host.Outcome.next.inj (h.symm.trans hfault)⟩
  · obtain ⟨_, _, -, -, hdest, -⟩ := operandsF3_ok ho
    exact .inr ⟨o.dest, v, hdest, Host.Outcome.next.inj (h.symm.trans hstored)⟩

/-! ### The statements -/

/-- Settles O12: the canonical word decodes, the operands of the table lead to the checked sum, and a fault of the
operands ends the instruction. -/
theorem addFollowsItsRule : Obligations.AddFollowsItsRule :=
  fun _ _ _ _ => ⟨decode_of_encode_eq (wordOf_eq_sum 1 _ _ _),
    fun _ _ _ ha hb hd => binaryToMemory_checked (fun x y => x + y) ha hb hd, fun _ h => exec_of_operandFault h⟩

/-- Settles O13: as ADD, with the checked product. -/
theorem mulFollowsItsRule : Obligations.MulFollowsItsRule :=
  fun _ _ _ _ => ⟨decode_of_encode_eq (wordOf_eq_sum 2 _ _ _),
    fun _ _ _ ha hb hd => binaryToMemory_checked (fun x y => x * y) ha hb hd, fun _ h => exec_of_operandFault h⟩

/-- Settles O30: a fault changes `status` and `fault` alone, and a store the one cell at the resolved destination. -/
theorem frameOfTheStoringInstructions : Obligations.FrameOfTheStoringInstructions := by
  intro m1 m2 m3 s t i hi h
  obtain ⟨f, hexec⟩ := exec_storing hi
  rw [hexec] at h
  rcases binaryToMemory_next h with ⟨r, rfl⟩ | ⟨d, v, hd, rfl⟩
  · exact ⟨rfl, rfl, rfl, .inr ⟨r, rfl⟩, fun _ _ => rfl⟩
  · exact ⟨rfl, rfl, rfl, .inl ⟨rfl, rfl⟩, fun a ha => Memory.read_write_ne s.mem v (ha d hd)⟩

/-- Settles O50: the operands are the three parameter words, and the product lies in `Int` of 64 bits and outside that
of 32. -/
theorem largeProductNeedsWideCells : Obligations.LargeProductNeedsWideCells := by
  intro s hpc h1 h2 h3
  have ha (p : Params) : sourceValue p s 1 .immediate = some 34915192 := h1 ▸ sourceValue_immediate hpc.ge 1
  have hb (p : Params) : sourceValue p s 2 .immediate = some 34915192 := h2 ▸ sourceValue_immediate hpc.ge 2
  have hd (p : Params) : destAddress p s 3 .position = some 7 := by simp [destAddress, effectiveAddress, h3]
  have hproduct (p : Params) := binaryToMemory_checked (fun x y => x * y) (ha p) (hb p) (hd p)
  refine ⟨?_, (hproduct ⟨.w32, true⟩).2 (by decide)⟩
  have hstored := (hproduct ⟨.w64, true⟩).1 (by decide)
  rw [hpc] at hstored
  exact hstored

end Sys2Proof.Machine
end

section
/-! PROOFS of the family of spec/42_io.md. First the words of a one-parameter instruction, whose last two digits are
ignored, and what the environment's script answers. Then INPUT and OUTPUT whose operand the table of the modes gives, as
instructions and as steps, and the frames: of INPUT, and of all the instructions that write no cell. -/

namespace Sys2Proof.Machine

/-! ### Encoding -/

/-- The word of a row's code and of one mode decodes to what the row makes of that mode, whatever the two digits above it
are: the row decides which modes it uses (R51, R57). -/
theorem decode_of_digits {r : OpcodeRow} (hr : r ∈ opcodeTable) (a : Mode) {x y : Nat} (hx : x < 10) (hy : y < 10) :
    decode Config.hardware (r.code + 100 * a.digit + 1000 * x + 10000 * y) =
      .ok (r.build a (Mode.ofDigit x) (Mode.ofDigit y)) := by
  have ho : r.code < 100 := opcodeTable_code_lt hr
  have hword : wordOf r.code a.digit (Mode.ofDigit x).digit (Mode.ofDigit y).digit =
      r.code + 100 * a.digit + 1000 * x + 10000 * y := by
    rw [wordOf_eq_sum, Mode.digit_ofDigit hx, Mode.digit_ofDigit hy]
  obtain ⟨hnonneg, hlt, hcode⟩ := Laws.WordShape.of_digits ho a.digit_lt_ten
    (Mode.ofDigit x).digit_lt_ten (Mode.ofDigit y).digit_lt_ten
  obtain ⟨ha, hb, hc⟩ := modeOf_wordOf ho a (Mode.ofDigit x) (Mode.ofDigit y)
  rw [← hword, decode_of_row hnonneg hlt hr hcode.symm (.inl hardware_relbaseEn), ha, hb, hc]

/-! ### What the environment answers from its script (log entry 5) -/

theorem pullAnswer_scripted {p : Params} {e : Env} {a : Option Int} {rest : List (Option Int)}
    (h : e.pulls = a :: rest) : pullAnswer p e = a := by
  simp [pullAnswer, h]

theorem Env.pulled_scripted {e : Env} {a : Option Int} {rest : List (Option Int)} (h : e.pulls = a :: rest) :
    e.pulled = { e with pulls := rest } := by
  simp [Env.pulled, h]

theorem stopAnswer_scripted {e : Env} {b : Bool} {rest : List Bool} (h : e.stops = b :: rest) : stopAnswer e = b := by
  simp [stopAnswer, h]

theorem Env.pushed_scripted {e : Env} {b : Bool} {rest : List Bool} (h : e.stops = b :: rest) (v : Int) :
    e.pushed v = { e with stops := rest, outputs := e.outputs ++ [v] } := by
  simp [Env.pushed, h]

/-- A pull leaves the sink's answers (R19). -/
@[simp] theorem Env.pulled_stops (e : Env) : e.pulled.stops = e.stops := by
  unfold Env.pulled
  split <;> rfl

/-! ### Meaning -/

/-- An INPUT whose destination the table of the modes gives comes to the answer of its pull, when that answer is none or a
value of the machine (R95, U13). -/
theorem inputWith_of_table {p : Params} {s : State} {m : Mode} {d : Int} (hd : destAddress p s 1 m = some d)
    (hv : ∀ v, pullAnswer p s.env = some v → p.InRange v) :
    inputWith p m s = .next (storeInput s.pulled d (pullAnswer p s.env)) := by
  have hoffer : ¬ s.env.offersOutOfRange p = true := fun h => by
    obtain ⟨v, ha, hout⟩ := offersOutOfRange_iff.mp h
    exact hout (hv v ha)
  rw [inputWith, operandF1D_eq_ok.mpr hd, withOperands, if_neg hoffer]

/-- An OUTPUT whose source the table of the modes gives pushes that value and comes to the sink's answer (R96). -/
theorem outputWith_of_table {p : Params} {s : State} {m : Mode} {v : Int} (hv : sourceValue p s 1 m = some v) :
    outputWith p m s = .next (finishOutput (s.pushed v) (stopAnswer s.env)) := by
  rw [outputWith, operandF1S_eq_ok.mpr hv, withOperands]

/-! ### Blocking, stopping and resuming (R97, R143) -/

theorem State.setStatus_self {s : State} {x : Status} (h : s.status = x) : s.setStatus x = s := h ▸ rfl

/-- `resume` of a core that a blocked INPUT or a stop request suspended leaves what it was with `Running` in `status`. -/
theorem resume_suspended {s : State} (h : s.status = .blockedOnInput ∨ s.status = .outputRequestedStop) :
    resume s = some (s.setStatus .running) := by
  unfold resume
  rcases h with h | h <;> rw [h]

/-- Answer none, then `resume`: only the answer is gone. -/
theorem resume_of_blocked {s : State} (hr : s.status = .running) (d : Int) :
    resume (storeInput s d none) = some s :=
  (resume_suspended (.inl rfl)).trans (congrArg some (State.setStatus_self (s := s) hr))

/-- A stop request, then `resume`: what no stop request leaves. -/
theorem resume_of_stopped {s : State} (hr : s.status = .running) :
    resume (finishOutput s true) = some (finishOutput s false) := by
  have hsame : finishOutput s false = (s.advance 2).setStatus .running := congrArg (s.advance 2).setStatus hr
  rw [hsame]
  exact resume_suspended (.inr rfl)

section Steps

variable {s : State} {m : Mode} (hr : s.status = .running) (h0 : 0 ≤ s.pc) (hl : s.pc < (s.len : Int))
include hr h0 hl

/-- A step whose word is an INPUT with an accessible destination. -/
theorem step_input {d : Int} (hi : decode Config.hardware s.word = .ok (.input m))
    (hd : destAddress Config.hardware s 1 m = some d)
    (hv : ∀ v, pullAnswer Config.hardware s.env = some v → Config.hardware.InRange v) :
    step s = .next (storeInput s.pulled d (pullAnswer Config.hardware s.env)) :=
  (stepRunsTheDecodedInstruction s _ hr h0 hl hi).trans (inputWith_of_table hd hv)

/-- A step whose word is an OUTPUT with an accessible source. -/
theorem step_output {v : Int} (ho : decode Config.hardware s.word = .ok (.output m))
    (hv : sourceValue Config.hardware s 1 m = some v) :
    step s = .next (finishOutput (s.pushed v) (stopAnswer s.env)) :=
  (stepRunsTheDecodedInstruction s _ hr h0 hl ho).trans (outputWith_of_table hv)

end Steps

/-! ### The statements -/

/-- Settles O14: the word's row uses the first mode alone; the destination of the table leads to the answer of the pull,
which is none or stored; and a fault of the operand ends the instruction before the pull. -/
theorem inputFollowsItsRule : Obligations.InputFollowsItsRule := by
  refine fun m1 s => ⟨fun x y hx hy => decode_of_digits (r := opcodeTable[2]) (List.getElem_mem _) m1 hx hy,
    fun d hd => ⟨fun hnone => ?_, fun v hv hin => ?_⟩, fun _ h => exec_of_operandFault h⟩
  · have hx := inputWith_of_table hd fun _ ha => absurd (hnone.symm.trans ha) (by simp)
    rw [hnone] at hx
    exact hx
  · have hx := inputWith_of_table hd fun _ ha => Option.some.inj (hv.symm.trans ha) ▸ hin
    rw [hv] at hx
    exact hx

/-- Settles O15: the word's row uses the first mode alone; the source of the table is pushed, and the sink's answer decides
`status`; and a fault of the operand ends the instruction before the push. -/
theorem outputFollowsItsRule : Obligations.OutputFollowsItsRule := by
  refine fun m1 s => ⟨fun x y hx hy => decode_of_digits (r := opcodeTable[3]) (List.getElem_mem _) m1 hx hy,
    fun v hv => ⟨Env.pushed_outputs s.env v, fun hgo => ?_, fun hstop => ?_⟩, fun _ h => exec_of_operandFault h⟩
  · have hx := outputWith_of_table hv
    rw [hgo] at hx
    exact hx
  · have hx := outputWith_of_table hv
    rw [hstop] at hx
    exact hx

/-- Settles O31: a fault changes `status` and `fault` alone, the answer none `status` alone, and a value pulled is stored
in the one cell at the resolved destination. -/
theorem frameOfInput : Obligations.FrameOfInput := by
  intro m1 s t h
  have h' : inputWith Config.hardware m1 s = .next t := h
  rcases inputWith_cases Config.hardware m1 s with ⟨r, hfault⟩ | ⟨d, hd, ⟨-, hrefused⟩ | ⟨-, hgoes⟩⟩
  · cases hfault.symm.trans h'
    exact ⟨rfl, rfl, rfl, rfl, .inr (.inr ⟨r, rfl⟩), fun _ _ => rfl⟩
  · cases hrefused.symm.trans h'
  · cases hgoes.symm.trans h'
    refine ⟨by simp, by simp, by simp, by simp, ?_⟩
    cases pullAnswer Config.hardware s.env with
    | none => exact ⟨.inr (.inl ⟨rfl, rfl, rfl, rfl⟩), fun _ _ => rfl⟩
    | some v =>
      obtain ⟨hdest, -⟩ := operandF1D_ok hd
      exact ⟨.inl ⟨rfl, rfl⟩, fun a ha => Memory.read_write_ne s.mem v (ha d hdest)⟩

/-- Settles O32: of all the next states of an instruction, the two shapes that store belong to other instructions; those
that are left write a register, `status` or the environment, and no cell. -/
theorem frameOfTheInstructionsThatStoreNothing : Obligations.FrameOfTheInstructionsThatStoreNothing := by
  intro m1 m2 s t i hi h
  rw [exec_eq_execWith] at h
  rcases execWith_cases _ i s t h with hfault | hstores | hjumps | hinputs | houtputs | hadjusts | hhalts
  · obtain ⟨r, rfl⟩ := hfault
    exact ⟨fun _ => rfl, rfl, fun _ => rfl, fun _ => rfl, .inr ⟨r, rfl⟩⟩
  · obtain ⟨_, _, _, _, _, -, -, ⟨rfl, -⟩ | ⟨rfl, -⟩ | ⟨rfl, -⟩ | ⟨rfl, -⟩⟩ := hstores <;> simp at hi
  · obtain ⟨_, _, _, -, -, rfl | rfl⟩ := hjumps <;>
      exact ⟨fun _ => rfl, rfl, fun _ => rfl, fun _ => rfl, .inl ⟨rfl, fun _ _ => rfl⟩⟩
  · obtain ⟨_, _, rfl, -⟩ := hinputs
    simp at hi
  · obtain ⟨m, _, rfl, -, rfl⟩ := houtputs
    obtain rfl : m = m1 := by simpa using hi
    exact ⟨fun _ => rfl, rfl, fun _ => rfl, fun hne => absurd rfl hne, .inl ⟨rfl, fun hne => absurd rfl hne⟩⟩
  · obtain ⟨m, _, rfl, -, -, -, rfl⟩ := hadjusts
    obtain rfl : m = m1 := by simpa using hi
    exact ⟨fun _ => rfl, rfl, fun hne => absurd rfl hne, fun _ => rfl, .inl ⟨rfl, fun _ _ => rfl⟩⟩
  · obtain ⟨rfl, rfl⟩ := hhalts
    exact ⟨fun _ => rfl, rfl, fun _ => rfl, fun _ => rfl, .inl ⟨rfl, fun _ hne => absurd rfl hne⟩⟩

/-- Settles O53: a blocked INPUT that is resumed is the state before but for the answer none, which is gone; a stopped
OUTPUT that is resumed is the state that no stop request leaves. -/
theorem resumptionIsTransparent : Obligations.ResumptionIsTransparent := by
  refine fun s m hr h0 hl => ⟨fun hi v rest d hv hd hpulls => ?_, fun ho v rest hv hstops => ?_⟩
  · have hblocks := step_input hr h0 hl hi hd fun w ha => by
      simp [pullAnswer_scripted hpulls] at ha
    rw [pullAnswer_scripted hpulls] at hblocks
    have hresumed : s.pulled = { s with env := { s.env with pulls := some v :: rest } } := by
      rw [State.pulled, Env.pulled_scripted hpulls]
    have hanswer : pullAnswer Config.hardware s.pulled.env = some v := by
      rw [hresumed]
      rfl
    have hstores := step_input (s := s.pulled) hr h0 hl hi hd fun w ha =>
      Option.some.inj (hanswer.symm.trans ha) ▸ hv
    exact ⟨_, _, _, hblocks, rfl, resume_of_blocked (s := s.pulled) hr d, hstores, hresumed ▸ hstores⟩
  · have hsuspends := step_output hr h0 hl ho hv
    rw [stopAnswer_scripted hstops] at hsuspends
    refine ⟨_, _, hsuspends, rfl, resume_of_stopped hr, ?_⟩
    have hgoes := step_output (s := { s with env := { s.env with stops := false :: rest } }) hr h0 hl ho hv
    rw [hgoes, State.pushed, State.pushed, Env.pushed_scripted hstops]
    rfl

end Sys2Proof.Machine
end

section
/-! PROOFS of the family of spec/43_jumps.md. First the words of a two-parameter instruction, whose last digit is ignored,
and their operands, which are those of the table of the modes. Then the jumps over such operands, and what each shape of
instruction does to `pc`. -/

namespace Sys2Proof.Machine

/-! ### Encoding -/

/-- The word of a row's code and of two modes decodes to what the row makes of these modes, whatever the digit above them
is (R51, R57). -/
theorem decode_of_two_modes {r : OpcodeRow} (hr : r ∈ opcodeTable) (a b : Mode) {x : Nat} (hx : x < 10) :
    decode Config.hardware (r.code + 100 * a.digit + 1000 * b.digit + 10000 * x) = .ok (r.build a b (Mode.ofDigit x)) := by
  have h := decode_of_digits hr a b.digit_lt_ten hx
  rwa [Mode.ofDigit_digit] at h

/-! ### The operands, by the table of the modes -/

theorem operandFault_pair_eq_none {p : Params} {s : State} {role1 role2 : Role} {m1 m2 : Mode} :
    operandFault p s [(role1, m1), (role2, m2)] = none ↔
      (resolveFault p s role1 1 m1 = none ∧ resolveFault p s role2 2 m2 = none) ∧
        accessFault s 1 m1 = none ∧ accessFault s 2 m2 = none := by
  simp [operandFault, Option.or_eq_none_iff]

/-- Phases A and B of two sources succeed exactly when the table gives both a value, and answer these values (R80). -/
theorem operandsF2_eq_ok {p : Params} {s : State} {m1 m2 : Mode} {o : OperandsF2} :
    operandsF2 p s m1 m2 = .ok o ↔ sourceValue p s 1 m1 = some o.v1 ∧ sourceValue p s 2 m2 = some o.v2 := by
  refine ⟨fun h => ?_, fun ⟨h1, h2⟩ => operandsF2_of_table h1 h2⟩
  rw [operandsF2_eq] at h
  cases hf : operandFault p s [(.src, m1), (.src, m2)] with
  | some r =>
    rw [hf] at h
    cases h
  | none =>
    rw [hf] at h
    cases h
    obtain ⟨⟨hres1, hres2⟩, hacc1, hacc2⟩ := operandFault_pair_eq_none.mp hf
    exact ⟨sourceValue_eq_some.mpr ⟨hres1, hacc1, rfl⟩, sourceValue_eq_some.mpr ⟨hres2, hacc2, rfl⟩⟩

/-! ### Meaning -/

theorem isNonzero_eq_true {v : Int} : isNonzero v = true ↔ v ≠ 0 := bne_iff_ne

/-- The condition of JUMP-IF-FALSE (R101). -/
theorem not_isNonzero_eq_true {v : Int} : (!isNonzero v) = true ↔ v = 0 := by
  simp [isNonzero]

/-- A jump whose two sources the table of the modes gives writes `pc` with the second when its condition holds of the
first, and advances by 3 when not (R100, R101). -/
theorem jumpWhen_of_table {p : Params} {s : State} {m1 m2 : Mode} {c t : Int} (taken : Int → Bool)
    (hc : sourceValue p s 1 m1 = some c) (ht : sourceValue p s 2 m2 = some t) :
    (taken c = true → jumpWhen p taken m1 m2 s = .next { s with pc := t }) ∧
      (¬ taken c = true → jumpWhen p taken m1 m2 s = .next { s with pc := s.pc + 3 }) := by
  rw [jumpWhen, operandsF2_of_table hc ht, withOperands]
  refine ⟨fun h => ?_, fun h => ?_⟩
  · rw [if_pos h]
    rfl
  · rw [if_neg h]
    rfl

/-! ### What each shape of instruction does to `pc` -/

theorem StoresResult.pc {p : Params} {i : Instr} {s t : State} (h : StoresResult p i s t) : t.pc = s.pc + i.length := by
  obtain ⟨_, _, _, _, _, -, rfl, ⟨rfl, -⟩ | ⟨rfl, -⟩ | ⟨rfl, -⟩ | ⟨rfl, -⟩⟩ := h <;> rfl

theorem Jumps.pc {p : Params} {i : Instr} {s t : State} (h : Jumps p i s t) :
    t.pc = s.pc + i.length ∨
      ∃ m1 m2, (i = .jumpIfTrue m1 m2 ∨ i = .jumpIfFalse m1 m2) ∧ sourceValue p s 2 m2 = some t.pc := by
  obtain ⟨m1, m2, o, hi, ho, rfl | rfl⟩ := h
  · obtain ⟨-, htarget⟩ := operandsF2_eq_ok.mp ho
    exact .inr ⟨m1, m2, hi, htarget⟩
  · rcases hi with rfl | rfl <;> exact .inl rfl

/-- INPUT writes `pc` exactly when it does not block (R95). -/
theorem Inputs.pc {p : Params} {i : Instr} {s t : State} (h : Inputs p i s t) :
    t.pc = s.pc + i.length ∨ (t.pc = s.pc ∧ ∃ m, i = .input m ∧ t.status = .blockedOnInput) := by
  obtain ⟨m, d, rfl, -, -, rfl⟩ := h
  cases pullAnswer p s.env with
  | none => exact .inr ⟨rfl, m, rfl, rfl⟩
  | some v => exact .inl rfl

/-! ### The statements -/

/-- Settles O16: the word's row uses the first two modes; both sources of the table are read before the condition decides;
and a fault of either ends the instruction. -/
theorem jumpIfTrueFollowsItsRule : Obligations.JumpIfTrueFollowsItsRule := by
  refine fun m1 m2 s => ⟨fun x hx => decode_of_two_modes (r := opcodeTable[4]) (List.getElem_mem _) m1 m2 hx,
    fun c t hc ht => ?_, fun _ h => exec_of_operandFault h⟩
  obtain ⟨htaken, huntaken⟩ := jumpWhen_of_table isNonzero hc ht
  exact ⟨fun hne => htaken (isNonzero_eq_true.mpr hne), fun h0 => huntaken fun h => isNonzero_eq_true.mp h h0⟩

/-- Settles O17: as JUMP-IF-TRUE, with the row of opcode 6 and the condition that the first source is zero. -/
theorem jumpIfFalseFollowsItsRule : Obligations.JumpIfFalseFollowsItsRule := by
  refine fun m1 m2 s => ⟨fun x hx => decode_of_two_modes (r := opcodeTable[5]) (List.getElem_mem _) m1 m2 hx,
    fun c t hc ht => ?_, fun _ h => exec_of_operandFault h⟩
  obtain ⟨htaken, huntaken⟩ := jumpWhen_of_table (fun v => !isNonzero v) hc ht
  exact ⟨fun h0 => htaken (not_isNonzero_eq_true.mpr h0), fun hne => huntaken fun h => hne (not_isNonzero_eq_true.mp h)⟩

/-- Settles O34: of all the next states of an instruction, a fault, a blocked INPUT and HALT leave `pc`, a taken jump
writes it with its second source, and every other advances it by the instruction's length. -/
theorem pcAdvancesByTheLengthExceptForJumps : Obligations.PcAdvancesByTheLengthExceptForJumps := by
  intro s t i h
  rw [exec_eq_execWith] at h
  rcases execWith_cases _ i s t h with hfault | hstores | hjumps | hinputs | houtputs | hadjusts | hhalts
  · obtain ⟨r, rfl⟩ := hfault
    exact .inr (.inl ⟨rfl, .inr (.inr ⟨r, rfl⟩)⟩)
  · exact .inl hstores.pc
  · exact hjumps.pc.imp_right .inr
  · exact hinputs.pc.imp_right fun ⟨hpc, hblocked⟩ => .inl ⟨hpc, .inr (.inl hblocked)⟩
  · obtain ⟨_, _, rfl, -, rfl⟩ := houtputs
    exact .inl rfl
  · obtain ⟨_, _, rfl, -, -, -, rfl⟩ := hadjusts
    exact .inl rfl
  · obtain ⟨rfl, rfl⟩ := hhalts
    exact .inr (.inl ⟨rfl, .inl rfl⟩)

end Sys2Proof.Machine
end

section
/-! PROOFS of the family of spec/44_compare.md. First the two comparisons, case by case, and an F3 instruction over an
operation that always has a result. LESS-THAN and EQUALS are then this rule at each case of their comparison. -/

namespace Sys2Proof.Machine

/-! ### The comparisons -/

theorem lessThanResult_of_lt {a b : Int} (h : a < b) : lessThanResult a b = 1 := if_pos h

theorem lessThanResult_of_le {a b : Int} (h : b ≤ a) : lessThanResult a b = 0 := if_neg (Int.not_lt.mpr h)

theorem equalsResult_of_eq {a b : Int} (h : a = b) : equalsResult a b = 1 := if_pos h

theorem equalsResult_of_ne {a b : Int} (h : a ≠ b) : equalsResult a b = 0 := if_neg h

/-! ### Meaning -/

/-- An F3 instruction over an operation that always has a result has no fault of its own: when the table of the modes
gives its operands, it stores the result and advances `pc` by 4 (R105, R106). -/
theorem binaryToMemory_total {p : Params} (g : Int → Int → Int) {s : State} {m1 m2 m3 : Mode} {a b d r : Int}
    (ha : sourceValue p s 1 m1 = some a) (hb : sourceValue p s 2 m2 = some b)
    (hd : destAddress p s 3 m3 = some d) (hr : g a b = r) :
    binaryToMemory p (fun x y => some (g x y)) m1 m2 m3 s =
      .next { s with mem := s.mem.write d.toNat r, pc := s.pc + 4 } := by
  rw [binaryToMemory_of_table ha hb hd, hr]
  rfl

/-! ### The statements -/

/-- Settles O18: the canonical word decodes, the operands of the table are compared as signed values, and a fault of the
operands ends the instruction. -/
theorem lessThanFollowsItsRule : Obligations.LessThanFollowsItsRule := by
  refine fun m1 m2 m3 s => ⟨decode_of_encode_eq (wordOf_eq_sum 7 _ _ _),
    fun a b d ha hb hd => ⟨fun hlt => ?_, fun hle => ?_⟩, fun _ h => exec_of_operandFault h⟩
  · exact binaryToMemory_total lessThanResult ha hb hd (lessThanResult_of_lt hlt)
  · exact binaryToMemory_total lessThanResult ha hb hd (lessThanResult_of_le hle)

/-- Settles O19: as LESS-THAN, with the equality of the two values. -/
theorem equalsFollowsItsRule : Obligations.EqualsFollowsItsRule := by
  refine fun m1 m2 m3 s => ⟨decode_of_encode_eq (wordOf_eq_sum 8 _ _ _),
    fun a b d ha hb hd => ⟨fun heq => ?_, fun hne => ?_⟩, fun _ h => exec_of_operandFault h⟩
  · exact binaryToMemory_total equalsResult ha hb hd (equalsResult_of_eq heq)
  · exact binaryToMemory_total equalsResult ha hb hd (equalsResult_of_ne hne)

end Sys2Proof.Machine
end

section
/-! PROOFS of the family of spec/45_base_and_halt.md. First the words of ADJUST-BASE in a machine without the relative base,
and those of HALT, whose three mode digits are all ignored. Then ADJUST-BASE whose source the table of the modes gives. -/

namespace Sys2Proof.Machine

/-! ### Encoding -/

/-- Without the relative base a word with the digits of ADJUST-BASE is no instruction (R4, R59). -/
theorem decode_adjustBase_of_no_relbase {p : Params} (hp : p.relbaseEn = false) (a x y : Nat) :
    decode p (9 + 100 * a + 1000 * x + 10000 * y) = .error .unknownOpcode := by
  obtain ⟨-, hvariant⟩ := withoutRelativeBase
  obtain ⟨hopcode9, -⟩ := hvariant p hp
  exact hopcode9 _ (by omega) (by omega)

/-- A word with opcode 99 and at most five digits decodes to HALT, which uses none of the three above its opcode
(R57, R111). -/
theorem decode_halt_of_digits {x y z : Nat} (hx : x < 10) (hy : y < 10) (hz : z < 10) :
    decode Config.hardware (99 + 100 * x + 1000 * y + 10000 * z) = .ok .halt := by
  have h := decode_of_digits (r := opcodeTable[9]) (List.getElem_mem _) (Mode.ofDigit x) hy hz
  rw [Mode.digit_ofDigit hx] at h
  exact h

/-! ### Meaning -/

/-- An ADJUST-BASE whose source the table of the modes gives, read with the old `rb`: a sum in `Int` becomes the new `rb`
and `pc` advances by 2, one outside is an `OverflowError` (R110). -/
theorem adjustBaseWith_of_table {p : Params} (hp : p.relbaseEn = true) {s : State} {m : Mode} {v : Int}
    (hv : sourceValue p s 1 m = some v) :
    (p.InRange (s.rb + v) → adjustBaseWith p m s = .next { s with rb := s.rb + v, pc := s.pc + 2 }) ∧
      (¬ p.InRange (s.rb + v) → adjustBaseWith p m s = .next (s.raise s.operateOverflowRecord)) := by
  rw [adjustBaseWith, if_pos hp, operandF1S_eq_ok.mpr hv, withOperands]
  refine ⟨fun hin => ?_, fun hout => ?_⟩
  · rw [addChk_eq_some.mpr ⟨hin, rfl⟩]
    rfl
  · rw [addChk_eq_none.mpr hout]
    rfl

/-! ### The statements -/

/-- Settles O20: the word's row uses the first mode alone, and exists only with the relative base; the source of the table
leads to the checked sum with `rb`; and a fault of the operand ends the instruction. -/
theorem adjustBaseFollowsItsRule : Obligations.AdjustBaseFollowsItsRule :=
  fun m1 _ => ⟨fun x y hx hy => ⟨decode_of_digits (r := opcodeTable[8]) (List.getElem_mem _) m1 hx hy,
      fun _ hp => decode_adjustBase_of_no_relbase hp _ x y⟩,
    fun _ hv => adjustBaseWith_of_table hardware_relbaseEn hv, fun _ h => exec_of_operandFault h⟩

/-- Settles O21: the row of opcode 99 uses no mode, and HALT is by its definition the one write of `status`. -/
theorem haltFollowsItsRule : Obligations.HaltFollowsItsRule :=
  ⟨fun _ _ _ hx hy hz => decode_halt_of_digits hx hy hz, fun _ => rfl⟩

end Sys2Proof.Machine
end

section
/-! PROOFS of the family of spec/60_exceptions.md. First the fault that a cycle reports: an answer is compared with an entry
of the table of R135, phase by phase, up to the whole cycle. All the faults of a step are then entries of that table, and
what a record holds is read off the table. -/

namespace Sys2Proof.Machine

/-! ### The fault that an answer reports -/

/-- The answer takes the fault `entry` in the state `s`; where there is no entry, it leads to no `Faulted` core. -/
def Reports (s : State) (entry : Option FaultRecord) (a : Answer) : Prop :=
  (∀ r, entry = some r → a = .next (s.raise r)) ∧ (entry = none → ∀ t, a = .next t → t.status ≠ .faulted)

/-- The faults of an instruction (ranks 4 to 8 of R135): those of its operands before that of its operation. -/
def executionFault (p : Params) (s : State) (i : Instr) : Option FaultRecord :=
  (operandFault p s i.params).or (operateFault p s i)

section Reports

variable {p : Params} {s : State}

theorem reports_raise (r : FaultRecord) : Reports s (some r) (.next (s.raise r)) :=
  ⟨fun _ h => Option.some.inj h ▸ rfl, fun h => nomatch h⟩

theorem reports_next {t : State} (ht : t.status ≠ .faulted) : Reports s none (.next t) :=
  ⟨fun _ h => (nomatch h), fun _ _ h => Host.Outcome.next.inj h ▸ ht⟩

theorem reports_refused (x : Refusal) : Reports s none (.refused x) :=
  ⟨fun _ h => (nomatch h), fun _ _ h => (nomatch h)⟩

/-- The fault of the operands comes before that of what is done with them (R74, R135). -/
theorem reports_withOperands {α : Type} {ops : Except FaultRecord α} {o : α} {k : α → Answer}
    {operands operation : Option FaultRecord}
    (hops : ops = match operands with
      | some r => .error r
      | none => .ok o)
    (hk : Reports s operation (k o)) : Reports s (operands.or operation) (withOperands s ops k) := by
  subst hops
  cases operands with
  | some r => exact reports_raise r
  | none => exact hk

/-- A checked result outside `Int` is the fault of phase C; one in `Int` goes on to phase D (R6, R92). -/
theorem reports_checked {phaseD : Option Int → Answer} {v : Int} (hin : Reports s none (phaseD (some v)))
    (hout : phaseD none = .next (s.raise s.operateOverflowRecord)) :
    Reports s (if p.InRange v then none else some s.operateOverflowRecord) (phaseD (checked p v)) := by
  by_cases hv : p.InRange v
  · rw [if_pos hv, checked_eq_some.mpr ⟨hv, rfl⟩]
    exact hin
  · rw [if_neg hv, checked_eq_none.mpr hv, hout]
    exact reports_raise _

variable (hs : s.status ≠ .faulted)
include hs

/-- INPUT's phases C and D have no fault (R95). -/
theorem reports_storeInput (d : Int) (a : Option Int) : Reports s none (.next (storeInput s.pulled d a)) := by
  cases a with
  | none => exact reports_next (by simp [storeInput])
  | some v => exact reports_next hs

/-- OUTPUT's phases C and D have no fault (R96). -/
theorem reports_finishOutput (v : Int) (stop : Bool) : Reports s none (.next (finishOutput (s.pushed v) stop)) := by
  cases stop with
  | true => exact reports_next (by simp [finishOutput])
  | false => exact reports_next hs

/-- An instruction that exists reports the first of its faults, and none where it has none. -/
theorem reports_execWith {i : Instr} (ha : i.available p = true) :
    Reports s (executionFault p s i) (execWith p i s) := by
  cases i with
  | add m1 m2 m3 =>
    exact reports_withOperands (operandsF3_eq p s m1 m2 m3) (reports_checked (reports_next hs) rfl)
  | mul m1 m2 m3 =>
    exact reports_withOperands (operandsF3_eq p s m1 m2 m3) (reports_checked (reports_next hs) rfl)
  | lessThan m1 m2 m3 => exact reports_withOperands (operandsF3_eq p s m1 m2 m3) (reports_next hs)
  | equals m1 m2 m3 => exact reports_withOperands (operandsF3_eq p s m1 m2 m3) (reports_next hs)
  | jumpIfTrue m1 m2 =>
    refine reports_withOperands (operandsF2_eq p s m1 m2) (reports_next ?_)
    split <;> exact hs
  | jumpIfFalse m1 m2 =>
    refine reports_withOperands (operandsF2_eq p s m1 m2) (reports_next ?_)
    split <;> exact hs
  | input m =>
    refine reports_withOperands (operandF1D_eq p s m) ?_
    split
    · exact reports_refused _
    · exact reports_storeInput hs _ _
  | output m => exact reports_withOperands (operandF1S_eq p s m) (reports_finishOutput hs _ _)
  | adjustBase m =>
    have hp : p.relbaseEn = true := ha
    rw [execWith, adjustBaseWith, if_pos hp]
    exact reports_withOperands (operandF1S_eq p s m) (reports_checked (reports_next hs) rfl)
  | halt => exact reports_next (by simp)

end Reports

/-! ### The fault that a cycle reports -/

/-- A `Running` core whose `pc` is outside the image takes that fault (R71, R122). -/
theorem stepWith_pcOutside {p : Params} {s : State} (hr : s.status = .running)
    (hpc : s.pc < 0 ∨ (s.len : Int) ≤ s.pc) : stepWith p s = .next (s.raise s.pcRangeRecord) := by
  have hout : s.pcOutOfRange = true := by simpa [State.pcOutOfRange] using hpc
  rw [stepWith, tickWith_running p _ hr, cycleWith, if_pos hout]

/-- For a fetched instruction the table of R135 goes on with the faults of the instruction. -/
theorem firstFault_decoded {p : Params} {s : State} {i : Instr} (hpc : ¬ (s.pc < 0 ∨ (s.len : Int) ≤ s.pc))
    (hu : ¬ (s.word < 0 ∨ ¬ knownOpcode p s.word)) (hhigh : ¬ 100000 ≤ s.word) (hd : decode p s.word = .ok i) :
    firstFault p s = executionFault p s i := by
  rw [firstFault, if_neg hpc, if_neg hu, if_neg hhigh, hd]
  rfl

/-- A cycle reports the first fault of the table of R135, rank by rank. -/
theorem reports_stepWith {p : Params} {s : State} (hr : s.status = .running) :
    Reports s (firstFault p s) (stepWith p s) := by
  by_cases hpc : s.pc < 0 ∨ (s.len : Int) ≤ s.pc
  · rw [firstFault, if_pos hpc, stepWith_pcOutside hr hpc]
    exact reports_raise _
  have h0 : 0 ≤ s.pc := by omega
  have hl : s.pc < (s.len : Int) := by omega
  by_cases hu : s.word < 0 ∨ ¬ knownOpcode p s.word
  · rw [firstFault, if_neg hpc, if_pos hu, stepWith_unknownOpcode hr h0 hl (decode_of_unknownOpcode hu)]
    exact reports_raise _
  obtain ⟨hw, hk⟩ : 0 ≤ s.word ∧ knownOpcode p s.word := (not_or.mp hu).imp not_lt.mp not_not.mp
  by_cases hhigh : 100000 ≤ s.word
  · rw [firstFault, if_neg hpc, if_neg hu, if_pos hhigh, stepWith_highDigits hr h0 hl (decode_of_highDigits hk hhigh)]
    exact reports_raise _
  obtain ⟨-, -, -, hfive⟩ := decoderReadsTheDecimalDigits p s.word
  obtain ⟨i, hd, -⟩ := hfive hw hk (not_le.mp hhigh)
  obtain ⟨-, -, ha, -⟩ := encodeOfDecodeKeepsTheUsedDigits p s.word i hd
  rw [firstFault_decoded hpc hu hhigh hd, stepWith_decoded hr h0 hl hd]
  exact reports_execWith (by simp [hr]) ha

/-- All the ways a step can lead to `Faulted`: a cycle takes the first fault of the table. -/
theorem stepWith_faulted {p : Params} {s t : State} (hs : s.status ≠ .faulted) (h : stepWith p s = .next t)
    (ht : t.status = .faulted) : ∃ r, firstFault p s = some r ∧ t = s.raise r := by
  by_cases hr : s.status = .running
  · obtain ⟨hfault, hnone⟩ := reports_stepWith (p := p) hr
    cases hf : firstFault p s with
    | none => exact absurd ht (hnone hf t h)
    | some r => exact ⟨r, rfl, Host.Outcome.next.inj (h.symm.trans (hfault r hf))⟩
  · obtain rfl : t = s := tickWith_stopped hr h
    exact absurd ht hs

/-! ### What a record of the table holds -/

/-- The record is one of this cycle: it has the fields of its kind, the `pc`, and where it has a word the instruction word
(R121). -/
def FaultRecord.Describes (r : FaultRecord) (s : State) : Prop :=
  r.pc = s.pc ∧ r.shaped ∧ ∀ w, r.word = some w → w = s.word

section Describes

variable {p : Params} {s : State} {r : FaultRecord}

theorem describes_operateOverflow : s.operateOverflowRecord.Describes s :=
  ⟨rfl, by simp [FaultRecord.shaped, State.operateOverflowRecord], fun _ h => (Option.some.inj h).symm⟩

theorem resolveFault_describes {role : Role} {i : Nat} {m : Mode} (h : resolveFault p s role i m = some r) :
    r.Describes s := by
  have badMode : (s.badModeRecord i m).Describes s :=
    ⟨rfl, by simp [FaultRecord.shaped, State.badModeRecord], fun _ h => (Option.some.inj h).symm⟩
  cases m with
  | position => cases h
  | immediate =>
    obtain ⟨-, rfl⟩ : role = .dst ∧ s.immediateDestinationRecord i = r := by simpa [resolveFault] using h
    exact ⟨rfl, by simp [FaultRecord.shaped, State.immediateDestinationRecord, Mode.digit],
      fun _ h => (Option.some.inj h).symm⟩
  | relative =>
    simp only [resolveFault] at h
    split at h
    · exact Option.some.inj h ▸ badMode
    split at h
    · cases h
    · cases h
      exact ⟨rfl, by simp [FaultRecord.shaped, State.resolveOverflowRecord], fun _ h => (Option.some.inj h).symm⟩
  | unrecognised k => exact Option.some.inj h ▸ badMode

theorem accessFault_describes {i : Nat} {m : Mode} (h : accessFault s i m = some r) : r.Describes s := by
  obtain ⟨hneg, rfl⟩ : addressFormula s i m < 0 ∧ s.addressRecord i (addressFormula s i m) = r := by
    simpa [accessFault] using h
  exact ⟨rfl, by simp [FaultRecord.shaped, State.addressRecord, hneg], fun _ h => (Option.some.inj h).symm⟩

theorem operandFault_describes {params : List (Role × Mode)} (h : operandFault p s params = some r) :
    r.Describes s := by
  rcases Option.or_eq_some_iff.mp h with hresolve | ⟨-, haccess⟩
  · obtain ⟨e, -, he⟩ := List.exists_of_findSome?_eq_some hresolve
    exact resolveFault_describes he
  · obtain ⟨e, -, he⟩ := List.exists_of_findSome?_eq_some haccess
    exact accessFault_describes he

theorem operateFault_describes {i : Instr} (h : operateFault p s i = some r) : r.Describes s := by
  unfold operateFault at h
  split at h
  · split at h
    · cases h
    · exact Option.some.inj h ▸ describes_operateOverflow
  · cases h

/-- Every entry of the table of R135 is a record of the cycle. -/
theorem firstFault_describes (h : firstFault p s = some r) : r.Describes s := by
  unfold firstFault at h
  split at h
  · cases h
    exact ⟨rfl, by simp [FaultRecord.shaped, State.pcRangeRecord], fun _ h => nomatch h⟩
  split at h
  · cases h
    exact ⟨rfl, by simp [FaultRecord.shaped, State.unknownOpcodeRecord], fun _ h => (Option.some.inj h).symm⟩
  split at h
  · cases h
    exact ⟨rfl, by simp [FaultRecord.shaped, State.highDigitsRecord], fun _ h => (Option.some.inj h).symm⟩
  split at h
  · rcases Option.or_eq_some_iff.mp h with hoperands | ⟨-, hoperation⟩
    · exact operandFault_describes hoperands
    · exact operateFault_describes hoperation
  · cases h

end Describes

/-! ### The fault of access -/

/-- When every parameter resolves, the fault of phase B is that of the lowest-numbered parameter whose address is negative
(R74, R125). -/
theorem operandFault_of_accessFault {p : Params} {s : State} {params : List (Role × Mode)} {n : Nat} {role : Role}
    {m : Mode} {r : FaultRecord} (hn : params[n]? = some (role, m)) (hr : accessFault s (n + 1) m = some r)
    (hresolve : ∀ j role' m', params[j]? = some (role', m') → resolveFault p s role' (j + 1) m' = none)
    (hbefore : ∀ j role' m', j < n → params[j]? = some (role', m') → accessFault s (j + 1) m' = none) :
    operandFault p s params = some r := by
  have hphaseA : ((params.zipIdx 1).findSome? fun e => resolveFault p s e.1.1 e.2 e.1.2) = none := by
    refine List.findSome?_eq_none_iff.mpr fun e he => ?_
    obtain ⟨hnumber, hx⟩ := List.mem_zipIdx_iff_le_and_getElem?_sub.mp he
    rw [← Nat.sub_add_cancel hnumber]
    exact hresolve (e.2 - 1) e.1.1 e.1.2 hx
  have hphaseB : ((params.zipIdx 1).findSome? fun e => accessFault s e.2 e.1.2) = some r := by
    refine findSome?_zipIdx hn (by rwa [Nat.add_comm 1]) fun j x hj hx => ?_
    rw [Nat.add_comm 1]
    exact hbefore j x.1 x.2 hj hx
  rw [operandFault, hphaseA, hphaseB, Option.none_or]

/-! ### The statements -/

/-- Settles O9: a cycle reports the entry of the table, which its ranks, phase by phase, give the answer of the cycle. -/
theorem cycleReportsTheFirstFault : Obligations.CycleReportsTheFirstFault :=
  fun _ _ hr => reports_stepWith hr

/-- Settles O26: the fault of phase B is an address fault of that parameter, and the instruction takes it. -/
theorem negativeAddressFaults : Obligations.NegativeAddressFaults :=
  fun _ s n _ m hn hneg hresolve hbefore =>
    exec_of_operandFault (r := s.addressRecord (n + 1) (addressFormula s (n + 1) m))
      (operandFault_of_accessFault hn (if_pos hneg) hresolve
        fun j role m' hj hx => accessFault_eq_none.mpr (hbefore j role m' hj hx))

/-- Settles O27: a step to `Faulted` raises an entry of the table, and raising writes `status` and `fault` alone. -/
theorem faultsArePrecise : Obligations.FaultsArePrecise := by
  intro p s t hs h ht
  obtain ⟨r, -, rfl⟩ := stepWith_faulted hs h ht
  exact ⟨r, rfl⟩

/-- Settles O28: a step to `Faulted` raises an entry of the table, and every entry is a record of the cycle. -/
theorem faultRecordsHaveTheFieldsOfTheirKind : Obligations.FaultRecordsHaveTheFieldsOfTheirKind := by
  intro p s t hs h ht
  obtain ⟨r, hr, rfl⟩ := stepWith_faulted hs h ht
  exact ⟨r, rfl, firstFault_describes hr⟩

/-- Settles O29: `Faulted` has no move in `step`, `run` and `resume`; load and restore write the whole core. -/
theorem faultedIsSticky : Obligations.FaultedIsSticky := by
  intro p s hs
  refine ⟨?_, ?_, fun t h => ?_, fun image himage => ?_, fun c => rfl⟩
  · simp [stepWith, tickWith, hs]
  · simp [resume, hs]
  · exact RunsTo.of_stopped (by simp [hs]) h
  · exact ⟨_, load_eq_some.mpr ⟨himage, rfl⟩, rfl, rfl⟩

/-- Settles O6: the range check is the first step of the cycle, and its record holds `pc` alone. -/
theorem pcOutsideTheImageFaults : Obligations.PcOutsideTheImageFaults := by
  intro s hr hpc
  rw [step_eq_stepWith]
  exact stepWith_pcOutside hr hpc

/-- Settles O11: the three statuses in which the model's step answers the state itself. -/
theorem stoppedCoreExecutesNothing : Obligations.StoppedCoreExecutesNothing := by
  rintro s (hs | hs | hs) <;> simp [step, tickWith, hs]

end Sys2Proof.Machine
end

section
/-! PROOFS of the family of spec/70_reset_and_hazards.md. First the operations of the control port, each said once. Then
the rows of R144's table that an instruction takes and with them a step, and what a run can come to. -/

namespace Sys2Proof.Machine

/-! ### The control port -/

/-- `resume` sets `status` to `Running` and changes nothing else; only a `Faulted` core is refused (R143, D14). -/
theorem resume_eq_some {s t : State} : resume s = some t ↔ s.status ≠ .faulted ∧ s.setStatus .running = t := by
  cases hs : s.status with
  | running => simp [resume, hs, State.setStatus_self hs]
  | haltedNormally => simp [resume, hs]
  | blockedOnInput => simp [resume, hs]
  | outputRequestedStop => simp [resume, hs]
  | faulted => simp [resume, hs]

theorem resume_faulted {s : State} (h : s.status = .faulted) : resume s = none := by
  simp [resume, h]

/-- The cells of an admissible image lie at legal addresses and hold values (R36). -/
theorem Memory.ofImage_inRange {p : Params} {image : List Int} (h : admissible p image) :
    Memory.inRange p (Memory.ofImage 0 image) := by
  obtain ⟨hvalues, hlength⟩ := h
  intro e he
  obtain ⟨-, hend, -, hin⟩ := Memory.ofImage_entry he
  refine ⟨?_, hvalues e.2 hin⟩
  unfold Params.maxImageLen at hlength
  omega

/-- A core that has loaded an admissible image meets the invariant (R140). -/
theorem load_wf {p : Params} {image : List Int} {s t : State} (h : load p image s = some t) : State.wf p t := by
  obtain ⟨himage, rfl⟩ := load_eq_some.mp h
  have ⟨_, hlength⟩ := himage
  exact ⟨Memory.ofImage_wf image 0, Memory.ofImage_inRange himage, Params.zero_inRange p, Params.zero_inRange p,
    hlength, by simp [loadedCore]⟩

/-- A core that halted at a HALT, resumed, runs that HALT again and returns as it was (R143). -/
theorem runsTo_of_resumed_halt {p : Params} {s : State} (hs : s.status = .haltedNormally) (h0 : 0 ≤ s.pc)
    (hl : s.pc < (s.len : Int)) (hd : decode p s.word = .ok .halt) : RunsTo p (s.setStatus .running) s := by
  have hstep : stepWith p (s.setStatus .running) = .next (s.setStatus .haltedNormally) :=
    stepWith_decoded (s := s.setStatus .running) rfl h0 hl hd
  rw [State.setStatus_self hs] at hstep
  exact .cycle rfl hstep (.returns (by simp [hs]))

/-! ### The table of `status` (R144) -/

/-- The rows of R144 that start at `Running` and raise no fault: the instruction of the cycle, the environment's answer
to its port call, and the status after it. -/
inductive StatusRow (p : Params) (e : Env) : Instr → Status → Prop where
  | halts : StatusRow p e .halt .haltedNormally
  | blocks (m : Mode) (h : pullAnswer p e = none) : StatusRow p e (.input m) .blockedOnInput
  | stops (m : Mode) (h : stopAnswer e = true) : StatusRow p e (.output m) .outputRequestedStop
  | goesOn {i : Instr} (hhalt : i ≠ .halt) (hin : ∀ m, i = .input m → pullAnswer p e ≠ none)
      (hout : ∀ m, i = .output m → stopAnswer e = false) : StatusRow p e i .running

/-- An instruction of a `Running` core takes a fault or a row of the table. -/
theorem execWith_status {p : Params} {i : Instr} {s t : State} (hr : s.status = .running)
    (h : execWith p i s = .next t) : t.status = .faulted ∨ StatusRow p s.env i t.status := by
  rcases execWith_cases p i s t h with ⟨r, rfl⟩ | hstores | hjumps | hinputs | houtputs | hadjusts | ⟨rfl, rfl⟩
  · exact .inl rfl
  · obtain ⟨_, _, _, _, _, -, rfl, hi⟩ := hstores
    right
    rw [State.advance_status, State.setCell_status, hr]
    rcases hi with ⟨rfl, -⟩ | ⟨rfl, -⟩ | ⟨rfl, -⟩ | ⟨rfl, -⟩ <;> exact .goesOn nofun nofun nofun
  · obtain ⟨_, _, _, hi, -, ht⟩ := hjumps
    have hstatus : t.status = .running := by rcases ht with rfl | rfl <;> exact hr
    right
    rw [hstatus]
    rcases hi with rfl | rfl <;> exact .goesOn nofun nofun nofun
  · obtain ⟨m, d, rfl, -, -, rfl⟩ := hinputs
    right
    cases ha : pullAnswer p s.env with
    | none => exact .blocks m ha
    | some v =>
      have hstatus : (storeInput s.pulled d (some v)).status = .running := hr
      rw [hstatus]
      exact .goesOn nofun (fun _ _ => by simp [ha]) nofun
  · obtain ⟨m, v, rfl, -, rfl⟩ := houtputs
    right
    cases ha : stopAnswer s.env with
    | true => exact .stops m ha
    | false =>
      have hstatus : (finishOutput (s.pushed v) false).status = .running := hr
      rw [hstatus]
      exact .goesOn nofun nofun fun _ _ => ha
  · obtain ⟨m, v, rfl, -, -, -, rfl⟩ := hadjusts
    right
    rw [State.advance_status, State.setRb_status, hr]
    exact .goesOn nofun nofun nofun
  · exact .inr .halts

/-- A cycle takes the first fault of the table of R135, or has none and takes a row of R144. -/
theorem stepWith_status {p : Params} {s t : State} (hr : s.status = .running) (h : stepWith p s = .next t) :
    (t.status = .faulted ∧ ∃ r, firstFault p s = some r) ∨
      (firstFault p s = none ∧ ∃ i, decode p s.word = .ok i ∧ StatusRow p s.env i t.status) := by
  by_cases ht : t.status = .faulted
  · obtain ⟨r, hf, -⟩ := stepWith_faulted (by simp [hr]) h ht
    exact .inl ⟨ht, r, hf⟩
  obtain ⟨hfault, -⟩ := reports_stepWith (p := p) hr
  have hnone : firstFault p s = none := by
    refine Option.eq_none_iff_forall_ne_some.mpr fun r hf => ht ?_
    obtain rfl : t = s.raise r := Host.Outcome.next.inj (h.symm.trans (hfault r hf))
    rfl
  rcases stepWith_cases h with ⟨hn, -⟩ | ⟨-, r, rfl⟩ | ⟨-, -, -, i, hd, hx⟩
  · exact absurd hr hn
  · exact absurd rfl ht
  · exact .inr ⟨hnone, i, hd, (execWith_status hr hx).resolve_left ht⟩

/-- Only a cycle that fetched a HALT inside the image halts, and it changes `status` alone (R111, R144). -/
theorem stepWith_halted {p : Params} {s t : State} (hr : s.status = .running) (h : stepWith p s = .next t)
    (ht : t.status = .haltedNormally) : 0 ≤ s.pc ∧ s.pc < (s.len : Int) ∧ decode p s.word = .ok .halt ∧
      t = s.setStatus .haltedNormally := by
  rcases stepWith_cases h with ⟨hn, -⟩ | ⟨-, r, rfl⟩ | ⟨-, h0, hl, i, hd, hx⟩
  · exact absurd hr hn
  · cases ht
  · have hrow : StatusRow p s.env i .haltedNormally := ht ▸ (execWith_status hr hx).resolve_left (by simp [ht])
    cases hrow
    exact ⟨h0, hl, hd, (Host.Outcome.next.inj hx).symm⟩

/-! ### What a run can come to -/

/-- A run that returns does so after some number of cycles. -/
theorem RunsTo.exists_runFor {p : Params} {s t : State} (h : RunsTo p s t) :
    ∃ n, runFor p n s = some t ∧ t.status ≠ .running := by
  induction h with
  | returns hn => exact ⟨0, rfl, hn⟩
  | cycle hr hs _ ih =>
    obtain ⟨n, hrun, ht⟩ := ih
    exact ⟨n + 1, (runFor_running hr hs n).trans hrun, ht⟩

/-- Cycles that lead to a core that is not `Running` are a run that returns there. -/
theorem RunsTo.of_runFor {p : Params} {t : State} (ht : t.status ≠ .running) {n : Nat} {s : State}
    (h : runFor p n s = some t) : RunsTo p s t := by
  induction n generalizing s with
  | zero =>
    cases h
    exact .returns ht
  | succ n ih =>
    by_cases hr : s.status = .running
    · cases hx : stepWith p s with
      | next u => exact .cycle hr hx (ih ((runFor_running hr hx n).symm.trans h))
      | fault r => simp [runFor, hr, hx] at h
      | refused r => simp [runFor, hr, hx] at h
    · obtain rfl : s = t := Option.some.inj ((runFor_stopped hr (n + 1)).symm.trans h)
      exact .returns hr

/-- A run returns in one state only: a step has one answer. -/
theorem RunsTo.unique {p : Params} {s t u : State} (ht : RunsTo p s t) (hu : RunsTo p s u) : u = t := by
  induction ht with
  | returns hn => exact hu.of_stopped hn
  | cycle hr hs _ ih =>
    obtain ⟨v, hv, hrest⟩ := hu.of_running hr
    obtain rfl := Host.Outcome.next.inj (hs.symm.trans hv)
    exact ih hrest

/-- A run that returns does not go on for ever. -/
theorem RunsTo.not_runsForever {p : Params} {s t : State} (h : RunsTo p s t) : ¬ RunsForever p s := by
  intro hforever
  obtain ⟨n, hrun, ht⟩ := h.exists_runFor
  obtain ⟨u, hrun', hu⟩ := hforever n
  obtain rfl : t = u := Option.some.inj (hrun.symm.trans hrun')
  exact ht hu

/-- The run comes to a `Running` core whose step is the refusal of an out-of-range input (log entry 7). -/
def RunRefused (p : Params) (s : State) : Prop :=
  ∃ n u, runFor p n s = some u ∧ u.status = .running ∧ stepWith p u = .refused .inputOutOfRange

/-- After any number of cycles a run has returned, has met the refusal, or is at a `Running` core. -/
theorem runFor_progress (p : Params) (s : State) (n : Nat) :
    (∃ t, RunsTo p s t) ∨ RunRefused p s ∨ ∃ t, runFor p n s = some t ∧ t.status = .running := by
  induction n with
  | zero =>
    by_cases hr : s.status = .running
    · exact .inr (.inr ⟨s, rfl, hr⟩)
    · exact .inl ⟨s, .returns hr⟩
  | succ n ih =>
    rcases ih with hret | href | ⟨t, hrun, ht⟩
    · exact .inl hret
    · exact .inr (.inl href)
    · rcases runningCoreAlwaysAnswers p t ht with ⟨u, hu⟩ | ⟨hrefused, -⟩
      · have hrun' : runFor p (n + 1) s = some u := runFor_then_cycle ht hu hrun
        by_cases hr : u.status = .running
        · exact .inr (.inr ⟨u, hrun', hr⟩)
        · exact .inl ⟨u, .of_runFor hr hrun'⟩
      · exact .inr (.inl ⟨n, t, hrun, ht, hrefused⟩)

/-! ### The statements -/

/-- Settles O33: a cycle takes the first fault, or a row of the table, and no two rows lead to one status; the
operations of the control port are read off what they answer. -/
theorem statusTransitionsAreThoseOfTheTable : Obligations.StatusTransitionsAreThoseOfTheTable := by
  refine fun p => ⟨fun s t hr h => ?_, fun s t => tickWith_stopped, fun s t h => ?_, fun s => resume_faulted,
    fun image s t h => ?_, fun c s => rfl⟩
  · rcases stepWith_status hr h with ⟨ht, hfault⟩ | ⟨hnone, i, hd, hrow⟩
    · rw [ht]
      exact ⟨nofun, nofun, nofun, fun _ => hfault, nofun⟩
    · rw [hd]
      generalize t.status = x at hrow
      cases hrow with
      | halts => exact ⟨fun _ => ⟨hnone, rfl⟩, nofun, nofun, nofun, nofun⟩
      | blocks m ha => exact ⟨nofun, fun _ => ⟨hnone, ⟨m, rfl⟩, ha⟩, nofun, nofun, nofun⟩
      | stops m ha => exact ⟨nofun, nofun, fun _ => ⟨hnone, ⟨m, rfl⟩, ha⟩, nofun, nofun⟩
      | goesOn hhalt hin hout =>
        exact ⟨nofun, nofun, nofun, nofun, fun _ => ⟨hnone, fun hi => hhalt (Except.ok.inj hi),
          fun ⟨m, hi⟩ => hin m (Except.ok.inj hi), fun ⟨m, hi⟩ => hout m (Except.ok.inj hi)⟩⟩
  · obtain ⟨hs, rfl⟩ := resume_eq_some.mp h
    exact ⟨hs, rfl⟩
  · obtain ⟨-, rfl⟩ := load_eq_some.mp h
    rfl

/-- Settles O41: an admissible image leaves values at legal addresses and 0 in the registers, `resume` writes `status`
away from no fault, and the invariant is one of the core, which `restore` takes whole. -/
theorem hostOperationsKeepTheInvariant : Obligations.HostOperationsKeepTheInvariant := by
  refine fun p s hw => ⟨fun image t => load_wf, fun t h => ?_, fun u hu => hu⟩
  obtain ⟨hs, rfl⟩ := resume_eq_some.mp h
  exact hw.setStatus hs (by decide)

/-- Settles O51: `load` decides whether the image is admissible, and the core it leaves is written from the image
alone. -/
theorem loadIsReset : Obligations.LoadIsReset := by
  refine fun p image s => ⟨fun h => if_neg h, fun hvalues hlength => ?_⟩
  have himage : admissible p image := ⟨hvalues, hlength⟩
  refine ⟨_, load_eq_some.mpr ⟨himage, rfl⟩, fun a => ?_, rfl, rfl, rfl, rfl, rfl, fun s' t' h => ?_⟩
  · simpa [loadedCore] using Memory.read_ofImage image 0 a
  · obtain ⟨-, rfl⟩ := load_eq_some.mp h
    rfl

/-- Settles O52: what `resume` answers, and the one cycle of the HALT that is run again. -/
theorem resumeByStatus : Obligations.ResumeByStatus :=
  fun _ _ => ⟨fun hs => resume_eq_some.mpr ⟨hs, rfl⟩, resume_faulted,
    fun hs h0 hl hd => ⟨_, resume_eq_some.mpr ⟨by simp [hs], rfl⟩, runsTo_of_resumed_halt hs h0 hl hd⟩⟩

/-- Settles O56: a core that a cycle halted stands at the HALT it fetched; the start of the run is `Running`, so a
cycle halted it. -/
theorem successfulRunEndsAtAHalt : Obligations.SuccessfulRunEndsAtAHalt := by
  intro p s t hr h
  refine h.keeps (P := fun u => u.terminatedSuccessfully →
    0 ≤ u.pc ∧ u.pc < (u.len : Int) ∧ decode p u.word = .ok .halt) (fun hrun hstep _ hhalted => ?_)
    (fun hhalted => absurd (hr.symm.trans hhalted) (by decide))
  obtain ⟨h0, hl, hd, rfl⟩ := stepWith_halted hrun hstep hhalted
  exact ⟨h0, hl, hd⟩

/-- Settles O57: the relation of a run and its count of cycles agree, a step has one answer, and a run that neither
returns nor is refused is `Running` after any number of cycles. -/
theorem runReturnsOrGoesOnForever : Obligations.RunReturnsOrGoesOnForever := by
  refine fun p s => ⟨fun t => ⟨RunsTo.exists_runFor, fun ⟨_, hrun, ht⟩ => .of_runFor ht hrun⟩,
    fun t h => ⟨h.not_runsForever, fun _ => h.unique⟩, ?_⟩
  by_cases hret : ∃ t, RunsTo p s t
  · exact .inl hret
  by_cases href : RunRefused p s
  · exact .inr (.inr href)
  · exact .inr (.inl fun n => ((runFor_progress p s n).resolve_left hret).resolve_left href)

/-- Settles O54: `restore` writes the whole core from the snapshot and nothing of the environment. -/
theorem restoreBringsBackTheWholeCore : Obligations.RestoreBringsBackTheWholeCore :=
  fun _ _ => ⟨rfl, rfl, rfl, rfl, rfl, rfl, rfl⟩

end Sys2Proof.Machine
end
